-- ==== Sys2Proof/Word.lean ====
section
/-! DEFINITION. The word types of the SOCSIM ISA (00_scope.md R5, R7: registers, addresses and the data bus are
32 bits; memory is byte-addressed). -/

namespace Sys2Proof

/-- A register, an address or a Bus datum: 32 bits (R7). -/
abbrev Word := BitVec 32

/-- A byte of memory, an opcode byte or an offset byte. -/
abbrev Byte := BitVec 8

/-- A register index field: an unsigned 8-bit number, `0 .. 255` (R83). -/
abbrev RegIndex := BitVec 8

/-- Format 1's data field (R83). -/
abbrev Imm16 := BitVec 16

end Sys2Proof
end

