-- ==== Sys2Proof/Config.lean ====
section
/-! DEFINITION. What a construction of the CORE fixes (00_scope.md R5), the shape of a Bus configuration
(20_memory.md R40), and the values the spec leaves to no law (free values: constants without a body). -/

namespace Sys2Proof

/-- SOC_ENDIAN (R5, R55). -/
inductive Endian
  | big
  | little
  deriving DecidableEq, Repr

/-- OPCODE_MAP (R5, R84): the opcode byte of each mnemonic. -/
structure OpcodeMap where
  loadli : Byte
  loadhi : Byte
  add    : Byte
  sub    : Byte
  store  : Byte
  load   : Byte
  push   : Byte
  pop    : Byte
  deriving DecidableEq, Repr

/-- The opcode bytes in the order of R84's table. -/
def OpcodeMap.codes (m : OpcodeMap) : List Byte :=
  [m.loadli, m.loadhi, m.add, m.sub, m.store, m.load, m.push, m.pop]

/-- R84's default values, `0x01 .. 0x08` in table order. DESIGN CHOICE of the spec itself (D1); notes entry 8. -/
def OpcodeMap.default : OpcodeMap where
  loadli := 0x01
  loadhi := 0x02
  add    := 0x03
  sub    := 0x04
  store  := 0x05
  load   := 0x06
  push   := 0x07
  pop    := 0x08

/-- A context's role. Neither routing nor reset uses it (R40, D11). -/
inductive Role
  | master
  | slave
  deriving DecidableEq, Repr

/-- The devices of the closed set of R49 and R173: the one CPU, and memory device `m` (its place in the list of
memory devices stands for the source's identity by reference, R40; notes entry 7). -/
inductive Device
  | cpu
  | memory (m : Nat)
  deriving DecidableEq, Repr

/-- An address range, inclusive on both bounds (R13, R40). -/
structure AddrRange where
  start : Word
  stop  : Word
  deriving DecidableEq, Repr

/-- A Bus registry entry (R40). `addressable` is not stored: it is `range` present (R40, D11). -/
structure DeviceContext where
  role   : Role
  device : Device
  range  : Option AddrRange
  deriving DecidableEq, Repr

/-- R40: "`addressable` is true exactly when `range` is present". -/
def DeviceContext.addressable (c : DeviceContext) : Bool := c.range.isSome

/-- The construction parameters of one memory device (R5): MEM_SIZE, MEM_BASE, MEM_FILL. -/
structure MemParams where
  size : Nat
  base : Word
  fill : Byte
  deriving DecidableEq, Repr

/-- The construction parameters of the CPU and of the system (R5), without the register count. -/
structure SocParams where
  endian      : Endian
  resetVector : Word
  regSentinel : Word
  opcodeMap   : OpcodeMap
  deriving DecidableEq, Repr

/-- All construction parameters of R5: `N`, the system's, each memory device's, and BUS_CONFIG in attach order. -/
structure Params where
  nRegs     : Nat
  soc       : SocParams
  memories  : List MemParams
  busConfig : List DeviceContext
  deriving DecidableEq, Repr

/-- The reference configuration: the test configuration TC of D23 (95_test_vectors.md section 0), with the BIG
setting TC takes unless a vector says LITTLE. DESIGN CHOICE: the spec gives the parameters no values; notes entry 2. -/
def Params.reference : Params where
  nRegs := 8
  soc :=
    { endian := .big, resetVector := 0x00000000, regSentinel := 0xCDCDCDCD, opcodeMap := .default }
  memories := [{ size := 0x100, base := 0x00000000, fill := 0x00 }]
  busConfig :=
    [ { role := .slave, device := .memory 0, range := some { start := 0x00000000, stop := 0x000000FF } },
      { role := .master, device := .cpu, range := none } ]

/-- The value register `i` holds before the first reset: unspecified (D28, K8), so a constant without a body.
Nothing can be proved of its value. Notes entry 3. -/
opaque Config.preResetReg : Nat → Word

/-- The byte at local address `l` of memory device `m` before the first reset: unspecified (D28, K8). Notes entry 3. -/
opaque Config.preResetByte : Nat → Nat → Byte

/-- The label a device's `getName` returns (R49); the spec gives none. Notes entry 23. -/
opaque Config.deviceName : Device → String

end Sys2Proof
end

