-- ==== Sys2Proof/Machine/ByteOrder.lean ====
section
/-! DEFINITION. Byte order: R55's `Assemble` and `Split`, the one place where it is decided (20_memory.md R55; its
meaning of BIG and LITTLE is general knowledge, notes entry 16). -/

namespace Sys2Proof

/-- The number whose base-256 digits are the bytes, least significant first. -/
def leValue : List Byte → Nat
  | [] => 0
  | b :: bs => b.toNat + 256 * leValue bs

/-- The `n` low base-256 digits of `v`, least significant first. -/
def leBytes : Nat → Nat → List Byte
  | 0, _ => []
  | n + 1, v => BitVec.ofNat 8 v :: leBytes n (v / 256)

/-- R55 `Assemble`: the numeric value of the bytes, the byte at the lowest local address first in the list. -/
def assembleBytes (e : Endian) (bs : List Byte) : Word :=
  match e with
  | .big => BitVec.ofNat 32 (leValue bs.reverse)
  | .little => BitVec.ofNat 32 (leValue bs)

/-- R55 `Split`: the `n` bytes of `v`, the byte for the lowest local address first in the list. -/
def splitBytes (e : Endian) (n : Nat) (v : Word) : List Byte :=
  match e with
  | .big => (leBytes n v.toNat).reverse
  | .little => leBytes n v.toNat

end Sys2Proof
end

