-- ==== Sys2Proof/Syntax.lean ====
section
/-! DEFINITION. The instructions: one constructor per row of the opcode table (30_encoding.md R84), with the fields
the row's format gives it (R81) and R86 says it references. -/

namespace Sys2Proof

/-- The eight instructions, R84. -/
inductive Instr
  /-- Format 1, R120: replace the low half of `x[r]`. -/
  | loadli (r : RegIndex) (imm16 : Imm16)
  /-- Format 1, R121: replace the high half of `x[r]`. -/
  | loadhi (r : RegIndex) (imm16 : Imm16)
  /-- Format 2, R130: `x[r3] <- x[r1] + x[r2]`. -/
  | add (r1 r2 r3 : RegIndex)
  /-- Format 2, R131: `x[r3] <- x[r1] - x[r2]`. -/
  | sub (r1 r2 r3 : RegIndex)
  /-- Format 3, R140: store `x[r2]` at `x[r1] + offset`. -/
  | store (r1 r2 : RegIndex) (offset : Byte)
  /-- Format 3, R141: load `x[r2]` from `x[r1] + offset`. -/
  | load (r1 r2 : RegIndex) (offset : Byte)
  /-- Format 2 with only `r1` referenced, R150 (bits 15..0 are ignored, R86). -/
  | push (r1 : RegIndex)
  /-- Format 2 with only `r1` referenced, R151 (bits 15..0 are ignored, R86). -/
  | pop (r1 : RegIndex)
  deriving DecidableEq, Repr

/-- The register fields an instruction references, in field order (R86). -/
def Instr.referenced : Instr → List RegIndex
  | .loadli r _    => [r]
  | .loadhi r _    => [r]
  | .add r1 r2 r3  => [r1, r2, r3]
  | .sub r1 r2 r3  => [r1, r2, r3]
  | .store r1 r2 _ => [r1, r2]
  | .load r1 r2 _  => [r1, r2]
  | .push r1       => [r1]
  | .pop r1        => [r1]

end Sys2Proof
end

