-- ==== Sys2Proof/WellFormed.lean ====
section
/-! DEFINITION. The checks on data the CORE is given: an instruction's register indices against `N` (10_state.md R21),
an opcode map (30_encoding.md R84), and the construction parameters (00_scope.md R5). -/

namespace Sys2Proof

/-- R21: "A register index `i` is valid if and only if `0 <= i < N`". -/
def RegIndex.validFor (n : Nat) (r : RegIndex) : Bool := decide (r.toNat < n)

/-- An instruction is well formed for `N` registers when every index it references is valid (R103). -/
def Instr.wellFormed (n : Nat) (i : Instr) : Bool := i.referenced.all (RegIndex.validFor n)

/-- R84: the map must be injective. -/
def OpcodeMap.wf (m : OpcodeMap) : Bool := decide m.codes.Nodup

/-- R5: `1 <= MEM_SIZE <= 2^32`. -/
def MemParams.wf (p : MemParams) : Bool := decide (1 ≤ p.size) && decide (p.size ≤ 2 ^ 32)

/-- R5: REG_SENTINEL is nonzero and OPCODE_MAP injective. -/
def SocParams.wf (p : SocParams) : Bool := (p.regSentinel != 0) && p.opcodeMap.wf

/-- BUS_CONFIG (R5, D29, R193 step 2): the CPU and every memory device, each attached once, and nothing else. -/
def Params.busWf (p : Params) : Bool :=
  decide ((p.busConfig.map (·.device)).Perm (.cpu :: (List.range p.memories.length).map .memory))

/-- R5: the legal parameter values. -/
def Params.wf (p : Params) : Bool :=
  decide (3 ≤ p.nRegs) && decide (p.nRegs ≤ 256) && p.soc.wf && p.memories.all MemParams.wf && p.busWf

end Sys2Proof
end

