-- ==== Sys2Proof/Decode.lean ====
section
/-! DEFINITION. The instruction decoder (30_encoding.md R80 to R88), total on words and on byte lists, and the encoder
written from the same tables. -/

namespace Sys2Proof

/-- Why no instruction is read. -/
inductive DecodeError
  /-- The opcode byte is not in OPCODE_MAP: R85's `DEC_OPCODE`. -/
  | decOpcode (opcode : Byte)
  /-- Fewer than the four bytes of an instruction word (R80). -/
  | truncated
  deriving DecidableEq, Repr

/-- `w[31:24]`, the opcode byte of every format (R81). -/
def opcodeField (w : Word) : Byte := w.extractLsb' 24 8

/-- `w[23:16]`: Format 1's `r`, Formats 2 and 3's `r1` (R81). -/
def r1Field (w : Word) : RegIndex := w.extractLsb' 16 8

/-- `w[15:8]`: Formats 2 and 3's `r2` (R81). -/
def r2Field (w : Word) : RegIndex := w.extractLsb' 8 8

/-- `w[7:0]`: Format 2's `r3` (R81). -/
def r3Field (w : Word) : RegIndex := w.extractLsb' 0 8

/-- `w[7:0]`: Format 3's signed offset (R81). -/
def offsetField (w : Word) : Byte := w.extractLsb' 0 8

/-- `w[15:0]`: Format 1's data (R81). -/
def imm16Field (w : Word) : Imm16 := w.extractLsb' 0 16

/-- R85. Register indices are not checked here; R103 does that. -/
def decode (m : OpcodeMap) (w : Word) : Except DecodeError Instr :=
  let op := opcodeField w
  if op = m.loadli then .ok (.loadli (r1Field w) (imm16Field w))
  else if op = m.loadhi then .ok (.loadhi (r1Field w) (imm16Field w))
  else if op = m.add then .ok (.add (r1Field w) (r2Field w) (r3Field w))
  else if op = m.sub then .ok (.sub (r1Field w) (r2Field w) (r3Field w))
  else if op = m.store then .ok (.store (r1Field w) (r2Field w) (offsetField w))
  else if op = m.load then .ok (.load (r1Field w) (r2Field w) (offsetField w))
  else if op = m.push then .ok (.push (r1Field w))
  else if op = m.pop then .ok (.pop (r1Field w))
  else .error (.decOpcode op)

/-- The instruction at the front of a list of memory bytes, in the system's byte order (R82), and the bytes after it. -/
def decodeBytes (m : OpcodeMap) (e : Endian) : List Byte → Except DecodeError (Instr × List Byte)
  | b0 :: b1 :: b2 :: b3 :: rest =>
    match decode m (assembleBytes e [b0, b1, b2, b3]) with
    | .ok i => .ok (i, rest)
    | .error err => .error err
  | _ => .error .truncated

/-- The canonical word of an instruction: opcode and fields most significant first (R81), PUSH's and POP's unused bits
zero (R86). -/
def encode (m : OpcodeMap) : Instr → Word
  | .loadli r imm16      => m.loadli ++ r ++ imm16
  | .loadhi r imm16      => m.loadhi ++ r ++ imm16
  | .add r1 r2 r3        => m.add ++ r1 ++ r2 ++ r3
  | .sub r1 r2 r3        => m.sub ++ r1 ++ r2 ++ r3
  | .store r1 r2 offset  => m.store ++ r1 ++ r2 ++ offset
  | .load r1 r2 offset   => m.load ++ r1 ++ r2 ++ offset
  | .push r1             => m.push ++ r1 ++ (0 : BitVec 16)
  | .pop r1              => m.pop ++ r1 ++ (0 : BitVec 16)

/-- The instruction's opcode byte under a map (R84). -/
def Instr.opcode (m : OpcodeMap) : Instr → Byte
  | .loadli _ _  => m.loadli
  | .loadhi _ _  => m.loadhi
  | .add _ _ _   => m.add
  | .sub _ _ _   => m.sub
  | .store _ _ _ => m.store
  | .load _ _ _  => m.load
  | .push _      => m.push
  | .pop _       => m.pop

/-- The instruction word of an opcode-table row: its bits numbered as the table numbers them, every bit from `nbits` up
zero. An instruction is one word (R80), so the table's bit `i` is the word's bit `i`. -/
def tableWord (nbits w : Nat) : Word := BitVec.ofNat 32 (w % 2 ^ nbits)

/-- The instruction the decoder reads from a table row's word, laid out in memory bytes under the reference
configuration (notes entry 24). -/
def decodeTableWord (nbits w : Nat) : Option Instr :=
  match decodeBytes .default Params.reference.soc.endian
      (splitBytes Params.reference.soc.endian 4 (tableWord nbits w)) with
  | .ok (i, _) => some i
  | .error _ => none

end Sys2Proof
end

