-- ==== Sys2Proof/Machine/Operands.lean ====
section
/-! DEFINITION. Operand forms and the ALU: extensions (00_scope.md R8), the 16-bit merges (41_immediate.md) and the two
wrapping operations (42_arith.md R129). There are no flags (10_state.md R24), so no operation computes one. -/

namespace Sys2Proof.Machine

open Sys2Proof

/-- R8: `zext_32`. -/
def zext32 (v : Imm16) : Word := v.setWidth 32

/-- R8: `sext_32(v8)` is `v8` when bit 7 is clear and `v8 + 0xFFFFFF00` when it is set. -/
def sext32 (v : Byte) : Word :=
  if v.getLsbD 7 then v.setWidth 32 + 0xFFFFFF00#32 else v.setWidth 32

/-- R129: addition modulo 2^32. -/
def aluAdd (a b : Word) : Word := a + b

/-- R129: subtraction modulo 2^32. -/
def aluSub (a b : Word) : Word := a - b

/-- R120: the low half replaced. -/
def mergeLow (old : Word) (imm16 : Imm16) : Word := (old &&& 0xFFFF0000#32) ||| zext32 imm16

/-- R121: the high half replaced. -/
def mergeHigh (old : Word) (imm16 : Imm16) : Word := (old &&& 0x0000FFFF#32) ||| (zext32 imm16 <<< 16)

/-- R139: the effective address from the base register's value and the offset byte, modulo 2^32. -/
def effectiveAddress (base : Word) (offset : Byte) : Word := aluAdd base (sext32 offset)

end Sys2Proof.Machine
end

