-- ==== Sys2Proof/Machine/State.lean ====
section
/-! DEFINITION. The state of the CORE as plain data (10_state.md), its reset, and the reasons a call can fail
(60_exceptions.md R160, R161). -/

namespace Sys2Proof.Machine

open Sys2Proof

/-- R160's failure kinds. All of them are failures the spec names, so raising one is what the hardware does. -/
inductive FailKind
  /-- Code 1: no addressable context's range holds the address (R44). Raised by the fetch, STORE, LOAD, PUSH, POP and
  the host's `request`. -/
  | routing
  /-- Code 2: the local address is not a multiple of the width (R52). Raised as `routing` is, and by the direct port. -/
  | devMisaligned
  /-- Code 3: `local + width > MEM_SIZE` (R53). Raised as `devMisaligned` is. -/
  | devBounds
  /-- Code 4: a read or write routed to the CPU device (R49). Raised as `routing` is. -/
  | devNotAccessible
  /-- Code 5: the opcode byte is not in OPCODE_MAP (R102). Raised by the cycle. -/
  | decOpcode
  /-- Code 6: a referenced register index is `>= N` (R103). Raised by every instruction. -/
  | decRegister
  /-- Code 7: the device is already attached (R41). Raised by the host's `attach`. -/
  | attachDuplicate
  /-- Code 8: the device is not attached (R42). Raised by the host's `detach`. -/
  | detachNotFound
  /-- Code 9: a device's reset failed during `resetAll` (R192). Raised by the host's system reset. -/
  | resetFailed
  deriving DecidableEq, Repr

/-- R160's numeric codes (0 is success). -/
def FailKind.code : FailKind → Nat
  | .routing => 1
  | .devMisaligned => 2
  | .devBounds => 3
  | .devNotAccessible => 4
  | .decOpcode => 5
  | .decRegister => 6
  | .attachDuplicate => 7
  | .detachNotFound => 8
  | .resetFailed => 9

/-- R10: an operation's result, `Ok(v)` or `Fail(k)`. -/
inductive Result (α : Type)
  | ok (v : α)
  | fail (k : FailKind)
  deriving DecidableEq, Repr

/-- A memory device (R30): its construction parameters MEM_SIZE, MEM_BASE, MEM_FILL, and its bytes, held as the cells
that differ from the fill (`Memory.wf` in Ops.lean is the one canonical form). -/
structure Memory where
  size  : Nat
  base  : Word
  fill  : Byte
  cells : List Host.Cell
  deriving DecidableEq, Repr

/-- The state of the CORE (10_state.md section 1): the register file, the memory devices and the Bus registry, beside
the construction parameters that no operation writes (notes entry 1). `N` is the length of `regs`; SP is the last
register but one and PC the last (R20, R22, R23). -/
structure State where
  soc      : SocParams
  regs     : List Word
  mems     : List Memory
  registry : List DeviceContext
  deriving DecidableEq, Repr

/-- Why `execute()` failed: R161's `Failure(phase, kind, addr)` with the state after the call. The spec says exactly
what a failing call leaves (R163), so the state is carried whole and a host may go on from it (R106). Both are what the
hardware does, hence safe; notes entry 4. -/
inductive Fault
  /-- Phase FETCH (R100): raised by the cycle when the fetch fails; `after` is the state before the call. Safe. -/
  | fetch (kind : FailKind) (addr : Word) (after : State)
  /-- Phase EXECUTE (R102 to R104): raised by the cycle for an unmapped opcode and by an instruction's meaning for an
  invalid register index or a failing memory access; PC has been advanced in `after`. Safe. -/
  | execute (kind : FailKind) (addr : Word) (after : State)
  deriving DecidableEq, Repr

/-- Refusals. Every instruction of the table has a meaning, so nothing raises one; safe. -/
inductive Refusal
  /-- An instruction without a meaning, by its mnemonic. Raised by no arm. Safe. -/
  | notModelled (mnemonic : String)
  deriving DecidableEq, Repr

/-- What an instruction's meaning and the step answer. -/
abbrev Out := Host.Outcome State Fault Refusal

/-- The register file after reset (R190): the sentinel in every register, SP included, and the reset vector in PC. -/
def resetRegs (n : Nat) (p : SocParams) : List Word :=
  List.replicate (n - 1) p.regSentinel ++ [p.resetVector]

/-- A memory device after reset (R191): the fill in every byte. -/
def Memory.afterReset (p : MemParams) : Memory :=
  { size := p.size, base := p.base, fill := p.fill, cells := [] }

/-- The machine of the given construction parameters right after system reset (R190 to R193). -/
def State.resetOf (p : Params) : State where
  soc := p.soc
  regs := resetRegs p.nRegs p.soc
  mems := p.memories.map Memory.afterReset
  registry := p.busConfig

/-- The machine right after reset, in the reference configuration. The spec leaves every parameter open: DESIGN CHOICE,
notes entry 2. -/
def State.reset : State := State.resetOf Params.reference

end Sys2Proof.Machine
end

