-- ==== Sys2Proof/Machine/Ops.lean ====
section
/-! DEFINITION. The named operations over registers, memory devices and the Bus (10_state.md, 20_memory.md), the failure
primitive (00_scope.md R11; there is no trap entry, 60_exceptions.md R166), and the cycle's shared steps
(40_cycle.md R100, R101, R103). -/

namespace Sys2Proof.Machine

open Sys2Proof

/-! ## Registers -/

/-- `N`, the register count (R20). -/
def State.nRegs (s : State) : Nat := s.regs.length

/-- `PCI = N-1` (R9, R22). -/
def State.pci (s : State) : Nat := s.nRegs - 1

/-- `SPI = N-2` (R9, R23). -/
def State.spi (s : State) : Nat := s.nRegs - 2

/-- `x[i]` (R9). Every read an instruction makes has been validated (R103); the 0 for `i >= N` is read by none
(notes entry 6). -/
def State.readReg (s : State) (i : Nat) : Word := s.regs.getD i 0

/-- `x[i] <- v` (R9). No register is hardwired (R20). -/
def State.writeReg (s : State) (i : Nat) (v : Word) : State := { s with regs := s.regs.set i v }

/-- `PC` (R9, R22). -/
def State.pc (s : State) : Word := s.readReg s.pci

/-- `SP` (R9, R23). -/
def State.sp (s : State) : Word := s.readReg s.spi

/-! ## The bytes of a memory device -/

/-- The byte a list of cells gives address `l`: the listed one, else the fill. -/
def cellAt (fill : Byte) : List Host.Cell → Nat → Byte
  | [], _ => fill
  | (a, b) :: cs, l => if a = l then b else cellAt fill cs l

/-- The cells with address `l` set to `b`, in canonical form: a byte equal to the fill is not listed. -/
def putCell (fill : Byte) (l : Nat) (b : Byte) : List Host.Cell → List Host.Cell
  | [] => if b = fill then [] else [(l, b)]
  | (a, x) :: cs =>
    if l < a then (if b = fill then (a, x) :: cs else (l, b) :: (a, x) :: cs)
    else if l = a then (if b = fill then cs else (l, b) :: cs)
    else (a, x) :: putCell fill l b cs

/-- The canonical form from address `lo` up: addresses strictly rising, below the size, no byte equal to the fill. -/
def cellsWf (fill : Byte) (size : Nat) : Nat → List Host.Cell → Bool
  | _, [] => true
  | lo, (a, b) :: cs => decide (lo ≤ a) && decide (a < size) && (b != fill) && cellsWf fill size (a + 1) cs

/-- A memory device's cells are in canonical form. -/
def Memory.wf (d : Memory) : Bool := cellsWf d.fill d.size 0 d.cells

/-- `mem[m][l]` (R30). -/
def Memory.readByte (d : Memory) (l : Nat) : Byte := cellAt d.fill d.cells l

/-- `mem[m][l] <- b` (R30). -/
def Memory.writeByte (d : Memory) (l : Nat) (b : Byte) : Memory :=
  { d with cells := putCell d.fill l b d.cells }

/-- The `n` bytes from local address `l` up. -/
def Memory.readBytes (d : Memory) (l : Nat) : Nat → List Byte
  | 0 => []
  | n + 1 => d.readByte l :: d.readBytes (l + 1) n

/-- The bytes written from local address `l` up. -/
def Memory.writeBytes (d : Memory) (l : Nat) : List Byte → Memory
  | [] => d
  | b :: bs => (d.writeByte l b).writeBytes (l + 1) bs

/-- The widths of a device-local access (R10, R52). -/
inductive Width
  | byte
  | half
  | word
  deriving DecidableEq, Repr

/-- A width in bytes. -/
def Width.bytes : Width → Nat
  | .byte => 1
  | .half => 2
  | .word => 4

/-- The checks of R53 and R54: alignment, then bounds over unbounded integers (D16, D26). -/
def Memory.checkAccess (d : Memory) (l : Nat) (n : Width) : Result Unit :=
  if l % n.bytes ≠ 0 then .fail .devMisaligned
  else if d.size < l + n.bytes then .fail .devBounds
  else .ok ()

/-- R53 `LocalRead(m, l, n)`; the value is zero-extended to a word. -/
def Memory.localRead (e : Endian) (d : Memory) (l : Nat) (n : Width) : Result Word :=
  match d.checkAccess l n with
  | .fail k => .fail k
  | .ok _ => .ok (assembleBytes e (d.readBytes l n.bytes))

/-- R54 `LocalWrite(m, l, n, v)`: the low `n` bytes of `v`. -/
def Memory.localWrite (e : Endian) (d : Memory) (l : Nat) (n : Width) (v : Word) : Result Memory :=
  match d.checkAccess l n with
  | .fail k => .fail k
  | .ok _ => .ok (d.writeBytes l (splitBytes e n.bytes v))

/-- R50: `local = (a - MEM_BASE[m]) mod 2^32`. -/
def Memory.localAddr (d : Memory) (a : Word) : Nat := (a - d.base).toNat

/-- R191: every byte the fill. -/
def Memory.reset (d : Memory) : Memory := { d with cells := [] }

/-! ## The Bus -/

/-- The inclusive range test of R44 (R47: none for `start > stop`). -/
def AddrRange.contains (r : AddrRange) (a : Word) : Bool := decide (r.start ≤ a) && decide (a ≤ r.stop)

/-- The context is addressable and its range holds the address (R44). -/
def DeviceContext.holds (c : DeviceContext) (a : Word) : Bool :=
  match c.range with
  | some r => AddrRange.contains r a
  | none => false

/-- R44: the device of the first context, in registry order, that holds the address. -/
def State.route (s : State) (a : Word) : Option Device :=
  (s.registry.find? (fun c => DeviceContext.holds c a)).map (·.device)

/-- The byte at local address `l` of memory device `m`, as the host's raw view shows it (R29); `none` where there is no
such device or byte. -/
def State.byteAt (s : State) (m l : Nat) : Option Byte :=
  match s.mems[m]? with
  | some d => if l < d.size then some (d.readByte l) else none
  | none => none

/-- R49 and R51: a device's read. A memory reference with no device behind it is not accessible (notes entry 7). -/
def State.devRead (s : State) (dev : Device) (a : Word) : Result Word :=
  match dev with
  | .cpu => .fail .devNotAccessible
  | .memory m =>
    match s.mems[m]? with
    | none => .fail .devNotAccessible
    | some d => d.localRead s.soc.endian (d.localAddr a) .word

/-- The state with memory device `m` replaced. -/
def State.setMem (s : State) (m : Nat) (d : Memory) : State := { s with mems := s.mems.set m d }

/-- R49 and R51: a device's write. -/
def State.devWrite (s : State) (dev : Device) (a v : Word) : Result State :=
  match dev with
  | .cpu => .fail .devNotAccessible
  | .memory m =>
    match s.mems[m]? with
    | none => .fail .devNotAccessible
    | some d =>
      match d.localWrite s.soc.endian (d.localAddr a) .word v with
      | .fail k => .fail k
      | .ok d' => .ok (s.setMem m d')

/-- R45 `MemRead(a, 4)`: the routed read. -/
def State.memRead (s : State) (a : Word) : Result Word :=
  match s.route a with
  | none => .fail .routing
  | some dev => s.devRead dev a

/-- R46 `MemWrite(a, 4, v)`: the routed write. -/
def State.memWrite (s : State) (a v : Word) : Result State :=
  match s.route a with
  | none => .fail .routing
  | some dev => s.devWrite dev a v

/-! ## Failing -/

/-- R100: a failing fetch changes nothing; `addr` is `pc0` (R161). -/
def failFetch (k : FailKind) (s : State) : Out := .fault (.fetch k s.pc s)

/-- R11 `raise Fail(k)` in phase EXECUTE: the call ends with the state as it stands. It is all that takes the place of
a trap entry (R166). -/
def failExecute (k : FailKind) (addr : Word) (s : State) : Out := .fault (.execute k addr s)

/-! ## The shared steps of the cycle -/

/-- R100 FETCH: the word at PC through the Bus. -/
def State.fetch (s : State) : Result Word := s.memRead s.pc

/-- R101 ADVANCE: `x[PCI] <- (pc0 + 4) mod 2^32`. -/
def State.advance (s : State) : State := s.writeReg s.pci (aluAdd s.pc 4)

/-- `pc0` as the EXECUTE step sees it: `x[PCI]` is `pc0 + 4` (R104). -/
def State.instrAddr (s : State) : Word := aluSub s.pc 4

/-- R103 VALIDATE, then the instruction's own effect: an index `>= N` among those referenced fails the instruction
before any effect (notes entry 5). -/
def validated (rs : List RegIndex) (s : State) (effect : Out) : Out :=
  if rs.all (RegIndex.validFor s.nRegs) then effect else failExecute .decRegister s.instrAddr s

/-- The store of STORE and PUSH (R140, R150): the state as it stands, with the word written, or the failure. -/
def storeWord (ea v : Word) (s : State) : Out :=
  match s.memWrite ea v with
  | .fail k => failExecute k ea s
  | .ok t => .next t

/-- The load of LOAD and POP into `x[r]` (R141, R151), then, for POP, the stack pointer's increment. -/
def loadWord (ea : Word) (r : RegIndex) (s : State) (thenDo : State → State) : Out :=
  match s.memRead ea with
  | .fail k => failExecute k ea s
  | .ok v => .next (thenDo (s.writeReg r.toNat v))

end Sys2Proof.Machine
end

