-- ==== Sys2Proof/Machine/Arith.lean ====
section
/-! DEFINITION. ADD and SUB (42_arith.md). Both sources are read before the destination is written. -/

namespace Sys2Proof.Machine

open Sys2Proof

/-- ADD, R130: `x[r3] <- (x[r1] + x[r2]) mod 2^32`. -/
def execAdd (r1 r2 r3 : RegIndex) (s : State) : Out :=
  validated [r1, r2, r3] s
    (.next (s.writeReg r3.toNat (aluAdd (s.readReg r1.toNat) (s.readReg r2.toNat))))

/-- SUB, R131: `x[r3] <- (x[r1] - x[r2]) mod 2^32`. -/
def execSub (r1 r2 r3 : RegIndex) (s : State) : Out :=
  validated [r1, r2, r3] s
    (.next (s.writeReg r3.toNat (aluSub (s.readReg r1.toNat) (s.readReg r2.toNat))))

end Sys2Proof.Machine
end

