-- ==== Sys2Proof/Machine/Immediate.lean ====
section
/-! DEFINITION. LOADLI and LOADHI (41_immediate.md). -/

namespace Sys2Proof.Machine

open Sys2Proof

/-- LOADLI, R120: `x[r] <- (x[r] & 0xFFFF0000) | zext_32(imm16)`. -/
def execLoadli (r : RegIndex) (imm16 : Imm16) (s : State) : Out :=
  validated [r] s (.next (s.writeReg r.toNat (mergeLow (s.readReg r.toNat) imm16)))

/-- LOADHI, R121: `x[r] <- (x[r] & 0x0000FFFF) | (zext_32(imm16) << 16)`. -/
def execLoadhi (r : RegIndex) (imm16 : Imm16) (s : State) : Out :=
  validated [r] s (.next (s.writeReg r.toNat (mergeHigh (s.readReg r.toNat) imm16)))

end Sys2Proof.Machine
end

