-- ==== Sys2Proof/Machine/LoadStore.lean ====
section
/-! DEFINITION. STORE and LOAD (43_loadstore.md). -/

namespace Sys2Proof.Machine

open Sys2Proof

/-- STORE, R140: `MemWrite(ea, 4, x[r2])` with `ea = (x[r1] + sext_32(offset)) mod 2^32`. -/
def execStore (r1 r2 : RegIndex) (offset : Byte) (s : State) : Out :=
  validated [r1, r2] s
    (storeWord (effectiveAddress (s.readReg r1.toNat) offset) (s.readReg r2.toNat) s)

/-- LOAD, R141: `x[r2] <- MemRead(ea, 4)` with `ea = (x[r1] + sext_32(offset)) mod 2^32`. -/
def execLoad (r1 r2 : RegIndex) (offset : Byte) (s : State) : Out :=
  validated [r1, r2] s (loadWord (effectiveAddress (s.readReg r1.toNat) offset) r2 s id)

end Sys2Proof.Machine
end

