-- ==== Sys2Proof/Machine/Stack.lean ====
section
/-! DEFINITION. PUSH and POP (44_stack.md): two statements each, in the order the spec writes them (D14, notes
entry 11). -/

namespace Sys2Proof.Machine

open Sys2Proof

/-- `x[SPI] <- (x[SPI] - 4) mod 2^32` (R150). -/
def decrementSp (s : State) : State := s.writeReg s.spi (aluSub s.sp 4)

/-- `x[SPI] <- (x[SPI] + 4) mod 2^32` (R151). -/
def incrementSp (s : State) : State := s.writeReg s.spi (aluAdd s.sp 4)

/-- The store of PUSH, after SP has been decremented: `MemWrite(x[SPI], 4, x[r1])` (R150). -/
def pushStore (r1 : RegIndex) (s : State) : Out := storeWord s.sp (s.readReg r1.toNat) s

/-- PUSH, R150: the decrement is committed before the store, and `x[r1]` is read after it. -/
def execPush (r1 : RegIndex) (s : State) : Out :=
  validated [r1] s (pushStore r1 (decrementSp s))

/-- POP, R151: load from `x[SPI]` into `x[r1]`, then add 4 to `x[SPI]` as it then stands. -/
def execPop (r1 : RegIndex) (s : State) : Out :=
  validated [r1] s (loadWord s.sp r1 s incrementSp)

end Sys2Proof.Machine
end

