-- ==== Sys2Proof/Machine/Dispatch.lean ====
section
/-! DEFINITION. One arm per instruction: each calls its meaning (40_cycle.md R104). -/

namespace Sys2Proof.Machine

open Sys2Proof

def exec (i : Instr) (s : State) : Host.Outcome State Fault Refusal :=
  match i with
  | .loadli r imm16 => Sys2Proof.Machine.execLoadli r imm16 s
  | .loadhi r imm16 => Sys2Proof.Machine.execLoadhi r imm16 s
  | .add r1 r2 r3 => Sys2Proof.Machine.execAdd r1 r2 r3 s
  | .sub r1 r2 r3 => Sys2Proof.Machine.execSub r1 r2 r3 s
  | .store r1 r2 offset => Sys2Proof.Machine.execStore r1 r2 offset s
  | .load r1 r2 offset => Sys2Proof.Machine.execLoad r1 r2 offset s
  | .push r1 => Sys2Proof.Machine.execPush r1 s
  | .pop r1 => Sys2Proof.Machine.execPop r1 s

end Sys2Proof.Machine
end

