-- ==== Sys2Proof/Machine/Cycle.lean ====
section
/-! DEFINITION. The fetch/advance/decode/validate/execute cycle (40_cycle.md R100 to R105). -/

namespace Sys2Proof.Machine

open Sys2Proof

/-- R102 to R104 on a fetched word: `s` is the state after the advance. Each instruction's meaning begins with its
VALIDATE step (R103). -/
def runWord (w : Word) (s : State) : Out :=
  match decode s.soc.opcodeMap w with
  | .error _ => failExecute .decOpcode s.instrAddr s
  | .ok i => exec i s

/-- R105: fetch, then advance, then run the word. -/
def cycle (s : State) : Out :=
  match s.fetch with
  | .fail k => failFetch k s
  | .ok w => runWord w s.advance

/-- The state with the word written where the next fetch reads it, as the host's loader does (R193 step 4); the state
unchanged where no backed, aligned word lies at PC, since nothing can be fetched there. -/
def putFetchWord (s : State) (w : Word) : State :=
  match s.memWrite s.pc w with
  | .ok t => t
  | .fail _ => s

end Sys2Proof.Machine
end

