-- ==== Sys2Proof/Machine/Step.lean ====
section
/-! DEFINITION. One step: one `execute()` call of the CPU (40_cycle.md R105). -/

namespace Sys2Proof.Machine

open Sys2Proof

/-- One call of `execute()`. -/
def step (s : State) : Host.Outcome State Fault Refusal := cycle s

/-- The state with an opcode-table row's word stored where `step` fetches next (notes entry 24). -/
def State.withFetchWord (s : State) (nbits w : Nat) : State := putFetchWord s (tableWord nbits w)

end Sys2Proof.Machine
end

