-- ==== Sys2Proof/Machine/Assembler.lean ====
section
/-! DEFINITION. The assembler's lines and the pseudo-instructions (30_encoding.md R89, R90): the spec's own notation
(D20, notes entry 25). No instruction's meaning rests on this file. -/

namespace Sys2Proof.Machine

open Sys2Proof

/-- A register as R89 spells it: `r0 .. r(N-1)`, `sp`, `pc`. -/
inductive AsmReg
  | r (k : Nat)
  | sp
  | pc
  deriving DecidableEq, Repr

/-- The index a spelling stands for with `N = n` registers (R89). -/
def AsmReg.index (n : Nat) : AsmReg → Option RegIndex
  | .r k => if k < n then some (BitVec.ofNat 8 k) else none
  | .sp => some (BitVec.ofNat 8 (n - 2))
  | .pc => some (BitVec.ofNat 8 (n - 1))

/-- An offset as R89 spells it: a signed decimal, or a hexadecimal byte. -/
inductive AsmOffset
  | dec (v : Int)
  | hex (v : Nat)
  deriving DecidableEq, Repr

/-- The offset byte; hexadecimal `0x80 .. 0xFF` means `-128 .. -1` (R89). -/
def AsmOffset.byte : AsmOffset → Option Byte
  | .dec v => if -128 ≤ v ∧ v ≤ 127 then some (BitVec.ofInt 8 v) else none
  | .hex v => if v ≤ 0xFF then some (BitVec.ofNat 8 v) else none

/-- R89: `imm16` is `0 .. 0xFFFF`. -/
def asmImm16 (v : Nat) : Option Imm16 := if v ≤ 0xFFFF then some (BitVec.ofNat 16 v) else none

/-- One word of an assembled program: an instruction, or R89's `.word v`. -/
inductive AsmItem
  | instr (i : Instr)
  | word (v : Word)
  deriving DecidableEq, Repr

/-- The word an item assembles to. -/
def AsmItem.toWord (m : OpcodeMap) : AsmItem → Word
  | .instr i => encode m i
  | .word v => v

/-- R90's pseudo-instructions. -/
inductive Pseudo
  | clr (d : RegIndex)
  | li16 (d : RegIndex) (imm16 : Imm16)
  | li32 (d : RegIndex) (imm32 : Word)
  | mov (d s : RegIndex)
  | jmp16 (imm16 : Imm16)
  | jmpr (s : RegIndex)
  | jmp32 (imm32 : Word) (t : RegIndex)
  | ret
  | call16 (imm16 : Imm16) (t : RegIndex)
  | nop
  | halt
  deriving DecidableEq, Repr

/-- R90's restrictions on the operands, with `pc` the index `n-1` and `sp` the index `n-2`. Those of an expansion that
is itself built from pseudo-instructions hold for the outer one. -/
def Pseudo.allowed (n : Nat) : Pseudo → Bool
  | .clr d => decide (d.toNat ≠ n - 1)
  | .li16 d _ => decide (d.toNat ≠ n - 1)
  | .li32 d _ => decide (d.toNat ≠ n - 1)
  | .mov d s => decide (d.toNat ≠ n - 2) && decide (s.toNat ≠ n - 2)
  | .jmp16 _ => true
  | .jmpr s => decide (s.toNat ≠ n - 2)
  | .jmp32 _ t => decide (t.toNat ≠ n - 1) && decide (t.toNat ≠ n - 2)
  | .ret => true
  | .call16 _ t => decide (t.toNat ≠ n - 1)
  | .nop => true
  | .halt => true

/-- `LI32 rD, imm32`: the low half, then the high half (R90). -/
def li32Items (d : RegIndex) (imm32 : Word) : List AsmItem :=
  [.instr (.loadli d (imm32.extractLsb' 0 16)), .instr (.loadhi d (imm32.extractLsb' 16 16))]

/-- R90's expansion table; `here` is the address of the first word of the expansion. -/
def Pseudo.expand (n : Nat) (here : Word) : Pseudo → List AsmItem
  | .clr d => [.instr (.sub d d d)]
  | .li16 d imm16 => [.instr (.sub d d d), .instr (.loadli d imm16)]
  | .li32 d imm32 => li32Items d imm32
  | .mov d s => [.instr (.push s), .instr (.pop d)]
  | .jmp16 imm16 => [.instr (.loadli (BitVec.ofNat 8 (n - 1)) imm16)]
  | .jmpr s => [.instr (.push s), .instr (.pop (BitVec.ofNat 8 (n - 1)))]
  | .jmp32 imm32 t => li32Items t imm32 ++ [.instr (.push t), .instr (.pop (BitVec.ofNat 8 (n - 1)))]
  | .ret => [.instr (.pop (BitVec.ofNat 8 (n - 1)))]
  | .call16 imm16 t =>
    li32Items t (here + 16) ++ [.instr (.push t), .instr (.loadli (BitVec.ofNat 8 (n - 1)) imm16)]
  | .nop => [.instr (.loadhi (BitVec.ofNat 8 (n - 1)) ((here + 4).extractLsb' 16 16))]
  | .halt => [.word 0xFF000000]

/-- A source line: R89's positional forms, `.word`, and R90's pseudo-instructions, with operands as written. -/
inductive AsmLine
  | loadli (r : AsmReg) (imm16 : Nat)
  | loadhi (r : AsmReg) (imm16 : Nat)
  | add (a b d : AsmReg)
  | sub (a b d : AsmReg)
  | store (b s : AsmReg) (off : AsmOffset)
  | load (b d : AsmReg) (off : AsmOffset)
  | push (a : AsmReg)
  | pop (a : AsmReg)
  | word (v : Word)
  | clr (d : AsmReg)
  | li16 (d : AsmReg) (imm16 : Nat)
  | li32 (d : AsmReg) (imm32 : Word)
  | mov (d s : AsmReg)
  | jmp16 (imm16 : Nat)
  | jmpr (s : AsmReg)
  | jmp32 (imm32 : Word) (t : AsmReg)
  | ret
  | call16 (imm16 : Nat) (t : AsmReg)
  | nop
  | halt
  deriving DecidableEq, Repr

/-- A pseudo-instruction's items, or none where R90 forbids the operands. -/
def Pseudo.items (n : Nat) (here : Word) (p : Pseudo) : Option (List AsmItem) :=
  if p.allowed n then some (p.expand n here) else none

/-- The items a line stands for at address `here` with `n` registers; none where an operand is out of range. -/
def AsmLine.items (n : Nat) (here : Word) : AsmLine → Option (List AsmItem)
  | .loadli r i => do return [.instr (.loadli (← r.index n) (← asmImm16 i))]
  | .loadhi r i => do return [.instr (.loadhi (← r.index n) (← asmImm16 i))]
  | .add a b d => do return [.instr (.add (← a.index n) (← b.index n) (← d.index n))]
  | .sub a b d => do return [.instr (.sub (← a.index n) (← b.index n) (← d.index n))]
  | .store b s o => do return [.instr (.store (← b.index n) (← s.index n) (← o.byte))]
  | .load b d o => do return [.instr (.load (← b.index n) (← d.index n) (← o.byte))]
  | .push a => do return [.instr (.push (← a.index n))]
  | .pop a => do return [.instr (.pop (← a.index n))]
  | .word v => some [.word v]
  | .clr d => do Pseudo.items n here (.clr (← d.index n))
  | .li16 d i => do Pseudo.items n here (.li16 (← d.index n) (← asmImm16 i))
  | .li32 d v => do Pseudo.items n here (.li32 (← d.index n) v)
  | .mov d s => do Pseudo.items n here (.mov (← d.index n) (← s.index n))
  | .jmp16 i => do Pseudo.items n here (.jmp16 (← asmImm16 i))
  | .jmpr s => do Pseudo.items n here (.jmpr (← s.index n))
  | .jmp32 v t => do Pseudo.items n here (.jmp32 v (← t.index n))
  | .ret => Pseudo.items n here .ret
  | .call16 i t => do Pseudo.items n here (.call16 (← asmImm16 i) (← t.index n))
  | .nop => Pseudo.items n here .nop
  | .halt => Pseudo.items n here .halt

/-- The words of a program whose first word lies at `here`, each line at the address after the one before. -/
def assembleLines (m : OpcodeMap) (n : Nat) : Word → List AsmLine → Option (List Word)
  | _, [] => some []
  | here, line :: lines =>
    match line.items n here with
    | none => none
    | some items =>
      match assembleLines m n (here + BitVec.ofNat 32 (4 * items.length)) lines with
      | none => none
      | some ws => some (items.map (AsmItem.toWord m) ++ ws)

end Sys2Proof.Machine
end

