-- ==== Sys2Proof/Machine/HostPort.lean ====
section
/-! DEFINITION. The host's operations (60_exceptions.md R175): none is an instruction, and the host performs them only
between `execute()` calls (D27, notes entry 22). The Bus registry (20_memory.md R41 to R43), the device contract (R49),
the direct memory port (R58), reset (70_reset_and_hazards.md), introspection (10_state.md R29), and the call view of a
step (60_exceptions.md R161, R165). -/

namespace Sys2Proof.Machine

open Sys2Proof

/-- What a host operation answers, and the state it leaves. -/
structure Reply (α : Type) where
  result : Result α
  after  : State
  deriving DecidableEq, Repr

/-! ## The registry -/

/-- The device is in the registry, by identity (R41). -/
def State.attached (s : State) (dev : Device) : Bool := s.registry.any (fun c => decide (c.device = dev))

/-- R41: append a context, or fail if the device is already attached. Ranges are not validated. -/
def attach (role : Role) (dev : Device) (range : Option AddrRange) (s : State) : Reply Unit :=
  if s.attached dev then { result := .fail .attachDuplicate, after := s }
  else
    { result := .ok (),
      after := { s with registry := s.registry ++ [{ role := role, device := dev, range := range }] } }

/-- R42: remove the first context of the device, or fail if there is none. -/
def detach (dev : Device) (s : State) : Reply Unit :=
  if s.attached dev then
    { result := .ok (), after := { s with registry := s.registry.eraseP (fun c => decide (c.device = dev)) } }
  else { result := .fail .detachNotFound, after := s }

/-! ## Reset -/

/-- R190: the sentinel in every register but PC, the reset vector in PC. It always succeeds (D17). -/
def cpuReset (s : State) : State := { s with regs := resetRegs s.nRegs s.soc }

/-- R49 `reset` of a device: R190 for the CPU, R191 for a memory. A memory reference with no device behind it cannot
be reset (notes entry 7). -/
def devReset (dev : Device) (s : State) : Result State :=
  match dev with
  | .cpu => .ok (cpuReset s)
  | .memory m =>
    match s.mems[m]? with
    | none => .fail .resetFailed
    | some d => .ok (s.setMem m d.reset)

/-- R192's loop over the contexts in registry order, stopping at the first that fails. -/
def resetContexts : List DeviceContext → State → Reply Unit
  | [], s => { result := .ok (), after := s }
  | c :: cs, s =>
    match devReset c.device s with
    | .fail _ => { result := .fail .resetFailed, after := s }
    | .ok t => resetContexts cs t

/-- R192 `resetAll()`, the host's `systemReset()`. -/
def resetAll (s : State) : Reply Unit := resetContexts s.registry s

/-! ## Bus requests from the host -/

/-- R43's operations. -/
inductive BusOp
  | read
  | write
  | reset
  deriving DecidableEq, Repr

/-- R43 `request(op, address, data)`. A read answers its value, a write and a reset none. -/
def request (op : BusOp) (a d : Word) (s : State) : Reply (Option Word) :=
  match op with
  | .read =>
    match s.memRead a with
    | .ok v => { result := .ok (some v), after := s }
    | .fail k => { result := .fail k, after := s }
  | .write =>
    match s.memWrite a d with
    | .ok t => { result := .ok none, after := t }
    | .fail k => { result := .fail k, after := s }
  | .reset =>
    match (resetAll s).result with
    | .ok _ => { result := .ok none, after := (resetAll s).after }
    | .fail k => { result := .fail k, after := (resetAll s).after }

/-! ## The direct memory port -/

/-- R58: `LocalRead(m, l, n)` by the host. -/
def directRead (m l : Nat) (n : Width) (s : State) : Result Word :=
  match s.mems[m]? with
  | none => .fail .devNotAccessible
  | some d => d.localRead s.soc.endian l n

/-- R58: `LocalWrite(m, l, n, v)` by the host. -/
def directWrite (m l : Nat) (n : Width) (v : Word) (s : State) : Reply Unit :=
  match s.mems[m]? with
  | none => { result := .fail .devNotAccessible, after := s }
  | some d =>
    match d.localWrite s.soc.endian l n v with
    | .fail k => { result := .fail k, after := s }
    | .ok d' => { result := .ok (), after := s.setMem m d' }

/-- R58 `writeWord(l, v)` on memory device `m`. -/
def writeWord (m l : Nat) (v : Word) (s : State) : Reply Unit := directWrite m l .word v s

/-! ## Introspection (R29) -/

/-- R29 `getRegisterFile()`. -/
def getRegisterFile (s : State) : List Word := s.regs

/-- R29: the raw byte view of memory device `m`. -/
def rawBytes (m : Nat) (s : State) : Option (List Byte) :=
  (s.mems[m]?).map (fun d => d.readBytes 0 d.size)

/-- R49 `getName`: a label, with no effect on any state. -/
def getName (dev : Device) : String := Config.deviceName dev

/-! ## `execute()` as the host sees it -/

/-- R161's phases. -/
inductive Phase
  | fetch
  | execute
  deriving DecidableEq, Repr

/-- R161: the result of `execute()`. `refused` stands for an instruction without a meaning; there is none. -/
inductive CallResult
  | success
  | failure (phase : Phase) (kind : FailKind) (addr : Word)
  | refused (reason : Refusal)
  deriving DecidableEq, Repr

/-- The boolean the contract requires (R105, R161). -/
def CallResult.succeeded (r : CallResult) : Bool := decide (r = .success)

/-- A call's result and the state after it. -/
structure Call where
  result : CallResult
  after  : State
  deriving DecidableEq, Repr

/-- What the host sees of a step's outcome, from the state before it. -/
def callOf (before : State) (o : Out) : Call :=
  match o with
  | .next t => { result := .success, after := t }
  | .fault (.fetch k a t) => { result := .failure .fetch k a, after := t }
  | .fault (.execute k a t) => { result := .failure .execute k a, after := t }
  | .refused r => { result := .refused r, after := before }

/-- `execute()` on the CPU: total, so that a host may go on after a failure (R106). -/
def execute (s : State) : Call := callOf s (step s)

/-- R49 `execute` of a device: the CPU's cycle; a memory returns success unconditionally. -/
def devExecute (dev : Device) (s : State) : Call :=
  match dev with
  | .cpu => execute s
  | .memory _ => { result := .success, after := s }

/-- R165: the CPU is Halted exactly when the most recent `execute()` returned failure. -/
def Call.halted (c : Call) : Bool := !c.result.succeeded

/-- The state after `k` calls of `execute()` by a host that never stops (R106). -/
def callTimes : Nat → State → State
  | 0, s => s
  | k + 1, s => callTimes k (execute s).after

/-- The end of a run (R165): how many calls were made, the last one's result and the state after it. -/
structure RunEnd where
  calls  : Nat
  result : CallResult
  after  : State
  deriving DecidableEq, Repr

/-- R165: call `execute()` up to and including the first failing call, at most `k` times (D19). -/
def runCalls : Nat → State → RunEnd
  | 0, s => { calls := 0, result := .success, after := s }
  | k + 1, s =>
    if (execute s).halted then { calls := 1, result := (execute s).result, after := (execute s).after }
    else
      { calls := (runCalls k (execute s).after).calls + 1,
        result := (runCalls k (execute s).after).result,
        after := (runCalls k (execute s).after).after }

/-! ## Construction and boot (R193) -/

/-- A constructed memory device: its bytes are unspecified until the first reset (D28). -/
def constructMemory (m : Nat) (p : MemParams) : Memory :=
  { size := p.size, base := p.base, fill := p.fill,
    cells := ((List.range p.size).map (fun l => (l, Config.preResetByte m l))).filter (fun c => c.2 != p.fill) }

/-- R193 step 1: `Bus()`, `Memory(capacityBytes)`, `CPU(registerCount)`; registers unspecified (D28), an empty
registry. -/
def construct (p : Params) : State where
  soc := p.soc
  regs := (List.range p.nRegs).map Config.preResetReg
  mems := p.memories.mapIdx constructMemory
  registry := []

/-- R193 step 2: attach the contexts in order, stopping at the first failure. -/
def attachAll : List DeviceContext → State → Reply Unit
  | [], s => { result := .ok (), after := s }
  | c :: cs, s =>
    match (attach c.role c.device c.range s).result with
    | .fail k => { result := .fail k, after := s }
    | .ok _ => attachAll cs (attach c.role c.device c.range s).after

/-- R193 steps 1 to 3: construct, attach everything, reset. -/
def boot (p : Params) : Reply Unit :=
  match (attachAll p.busConfig (construct p)).result with
  | .fail k => { result := .fail k, after := (attachAll p.busConfig (construct p)).after }
  | .ok _ => resetAll (attachAll p.busConfig (construct p)).after

end Sys2Proof.Machine
end

