-- ==== Sys2Proof/Safety.lean ====
section
/-! DEFINITION. The terms claims are stated in: the invariant of legal states, what an address is backed by, which bytes
a word occupies, what stays the same, and what a safe run is. They are written from the rules in plain arithmetic, apart
from the functions the machine uses. -/

namespace Sys2Proof.Machine

open Sys2Proof

/-! ## Legal states -/

/-- Every device the registry names exists (R40: the closed set of devices). -/
def State.DevicesExist (s : State) : Prop :=
  ∀ c ∈ s.registry, ∀ m, c.device = .memory m → m < s.mems.length

/-- A legal state: the parameter ranges of R5 and R84, memory devices in canonical form (R30), and a registry that
`attach` can build (R41: no device twice). Every operation keeps it. -/
structure State.Inv (s : State) : Prop where
  regs_low   : 3 ≤ s.nRegs
  regs_high  : s.nRegs ≤ 256
  sentinel   : s.soc.regSentinel ≠ 0
  opcodes    : s.soc.opcodeMap.wf = true
  mem_wf     : ∀ d ∈ s.mems, d.wf = true
  mem_size   : ∀ d ∈ s.mems, 1 ≤ d.size ∧ d.size ≤ 2 ^ 32
  registered : (s.registry.map (·.device)).Nodup
  exist      : s.DevicesExist

/-! ## What an address is backed by -/

/-- The context's range is present and holds the address, both bounds included (R44, R47). -/
def HoldsAddr (c : DeviceContext) (a : Word) : Prop :=
  ∃ r, c.range = some r ∧ r.start.toNat ≤ a.toNat ∧ a.toNat ≤ r.stop.toNat

/-- The first context that holds the address is one of device `dev` (R44). -/
def RoutesTo (s : State) (a : Word) (dev : Device) : Prop :=
  ∃ before c rest, s.registry = before ++ c :: rest ∧ (∀ b ∈ before, ¬ HoldsAddr b a) ∧ HoldsAddr c a ∧ c.device = dev

/-- No context holds the address (R44). -/
def Unrouted (s : State) (a : Word) : Prop := ∀ c ∈ s.registry, ¬ HoldsAddr c a

/-- The local address of a physical address in device `d` (R50), in plain arithmetic. -/
def localOf (d : Memory) (a : Word) : Nat := (a.toNat + (2 ^ 32 - d.base.toNat)) % 2 ^ 32

/-- The address is routed to memory device `m` at local address `l`, and the word there is aligned and in bounds
(R44, R50, R52, R53). -/
def WordAt (s : State) (a : Word) (m l : Nat) : Prop :=
  RoutesTo s a (.memory m) ∧ ∃ d, s.mems[m]? = some d ∧ l = localOf d a ∧ l % 4 = 0 ∧ l + 4 ≤ d.size

/-- Why a word access at the address fails (R44, R49, R52, R53), one kind each, alignment before bounds (R164). -/
inductive AccessFails (s : State) (a : Word) : FailKind → Prop
  | routing (h : Unrouted s a) : AccessFails s a .routing
  | notAccessible (h : RoutesTo s a .cpu) : AccessFails s a .devNotAccessible
  | misaligned (m : Nat) (d : Memory) (h : RoutesTo s a (.memory m)) (hd : s.mems[m]? = some d)
      (hl : localOf d a % 4 ≠ 0) : AccessFails s a .devMisaligned
  | bounds (m : Nat) (d : Memory) (h : RoutesTo s a (.memory m)) (hd : s.mems[m]? = some d)
      (hl : localOf d a % 4 = 0) (hb : d.size < localOf d a + 4) : AccessFails s a .devBounds

/-! ## The bytes of a word -/

/-- Byte `k` of a word's memory image, `k = 0` at the lowest address (R55, R82). -/
def imageByte (e : Endian) (v : Word) (k : Nat) : Byte :=
  match e with
  | .big => v.extractLsb' (24 - 8 * k) 8
  | .little => v.extractLsb' (8 * k) 8

/-- The four bytes from local address `l` of memory device `m` up are the word's image. -/
def HoldsWord (s : State) (m l : Nat) (v : Word) : Prop :=
  ∀ k, k < 4 → s.byteAt m (l + k) = some (imageByte s.soc.endian v k)

/-! ## What stays the same -/

/-- Every byte of every memory device, present or not, reads as before (R29's raw view). -/
def SameMemory (s t : State) : Prop := ∀ m l, t.byteAt m l = s.byteAt m l

/-- Every byte but the `n` from local address `l` of memory device `m` up reads as before. -/
def SameMemoryBut (m l n : Nat) (s t : State) : Prop :=
  ∀ m' l', (m' ≠ m ∨ l' < l ∨ l + n ≤ l') → t.byteAt m' l' = s.byteAt m' l'

/-- The construction parameters and the Bus registry are as before (R5, R28). -/
def SameSetup (s t : State) : Prop :=
  t.soc = s.soc ∧ t.registry = s.registry ∧ t.nRegs = s.nRegs ∧
    t.mems.map (fun d => (d.size, d.base, d.fill)) = s.mems.map (fun d => (d.size, d.base, d.fill))

/-- Every register is as before. -/
def SameRegs (s t : State) : Prop := t.nRegs = s.nRegs ∧ ∀ i, i < s.nRegs → t.readReg i = s.readReg i

/-- Every register outside the list is as before. -/
def SameRegsBut (js : List Nat) (s t : State) : Prop :=
  t.nRegs = s.nRegs ∧ ∀ i, i < s.nRegs → i ∉ js → t.readReg i = s.readReg i

/-! ## The spec's tables about instructions -/

/-- The registers an instruction may write beside the advance of PC (10_state.md section 1, column "written by"). -/
def regsWritten (n : Nat) : Instr → List Nat
  | .loadli r _   => [r.toNat]
  | .loadhi r _   => [r.toNat]
  | .add _ _ r3   => [r3.toNat]
  | .sub _ _ r3   => [r3.toNat]
  | .store _ _ _  => []
  | .load _ r2 _  => [r2.toNat]
  | .push _       => [n - 2]
  | .pop r1       => [r1.toNat, n - 2]

/-- Register `i` as an instruction whose cycle starts at `s` reads it: PC has been advanced (R104). -/
def State.seenReg (s : State) (i : Nat) : Word := if i = s.pci then s.pc + 4 else s.readReg i

/-- The Bus address of the one access an instruction makes in the cycle that starts at `s` (R139, R150, R151). -/
def accessAddr (s : State) : Instr → Option Word
  | .loadli _ _        => none
  | .loadhi _ _        => none
  | .add _ _ _         => none
  | .sub _ _ _         => none
  | .store r1 _ offset => some (effectiveAddress (s.seenReg r1.toNat) offset)
  | .load r1 _ offset  => some (effectiveAddress (s.seenReg r1.toNat) offset)
  | .push _            => some (s.sp - 4)
  | .pop _             => some s.sp

/-- The failure kinds R162 lists for an instruction. -/
def failKinds : Instr → List FailKind
  | .loadli _ _  => [.decRegister]
  | .loadhi _ _  => [.decRegister]
  | .add _ _ _   => [.decRegister]
  | .sub _ _ _   => [.decRegister]
  | .store _ _ _ => [.decRegister, .routing, .devMisaligned, .devBounds, .devNotAccessible]
  | .load _ _ _  => [.decRegister, .routing, .devMisaligned, .devBounds, .devNotAccessible]
  | .push _      => [.decRegister, .routing, .devMisaligned, .devBounds, .devNotAccessible]
  | .pop _       => [.decRegister, .routing, .devMisaligned, .devBounds, .devNotAccessible]

/-! ## Safe runs -/

/-- `k` steps of the machine as the host's own run loop takes them, stopping at the first failure. -/
def hostRun (k : Nat) (s : State) : Out := Host.Core.run Sys2Proof.core k s

/-- A run of `k` calls without a failure (R165). -/
def SafeRun (k : Nat) (s : State) : Prop := ∃ t, hostRun k s = .next t

/-- The words of an expansion run one after the other, each as its cycle runs it once fetched (R101 to R104): PC
advanced, then the word decoded and executed. -/
def runItems : List AsmItem → State → Out
  | [], s => .next s
  | i :: is, s =>
    match runWord (i.toWord s.soc.opcodeMap) s.advance with
    | .next t => runItems is t
    | .fault f => .fault f
    | .refused r => .refused r

/-! ## Relations between two machines -/

/-- The machine with every context's role replaced by one (R40: no rule uses the role). -/
def State.withRole (r : Role) (s : State) : State :=
  { s with registry := s.registry.map (fun c => { c with role := r }) }

/-- An outcome with the states in it mapped. -/
def mapOut (f : State → State) (o : Out) : Out :=
  match o with
  | .next t => .next (f t)
  | .fault (.fetch k a t) => .fault (.fetch k a (f t))
  | .fault (.execute k a t) => .fault (.execute k a (f t))
  | .refused r => .refused r

/-- Two memory devices of the same construction that read the same number at every aligned word, each in its own byte
order (R82: "A program written with `writeWord` of numeric words decodes the same under both settings"). -/
def SameWords (e e' : Endian) (d d' : Memory) : Prop :=
  d'.size = d.size ∧ d'.base = d.base ∧ d'.fill = d.fill ∧ ∀ l, d'.localRead e' l .word = d.localRead e l .word

/-- Two machines that differ at most in byte order, with memories that hold the same words. -/
structure SameButEndian (s t : State) : Prop where
  vector   : t.soc.resetVector = s.soc.resetVector
  sentinel : t.soc.regSentinel = s.soc.regSentinel
  opcodes  : t.soc.opcodeMap = s.soc.opcodeMap
  regs     : t.regs = s.regs
  registry : t.registry = s.registry
  mems     : List.Forall₂ (SameWords s.soc.endian t.soc.endian) s.mems t.mems

/-- Two outcomes of the same form: both go on, or both fail in the same way, with related states. -/
inductive OutRel (R : State → State → Prop) : Out → Out → Prop
  | next {s t : State} (h : R s t) : OutRel R (.next s) (.next t)
  | fetch {k : FailKind} {a : Word} {s t : State} (h : R s t) : OutRel R (.fault (.fetch k a s)) (.fault (.fetch k a t))
  | execute {k : FailKind} {a : Word} {s t : State} (h : R s t) :
      OutRel R (.fault (.execute k a s)) (.fault (.execute k a t))

end Sys2Proof.Machine
end

