-- ==== Sys2Proof/Certificates/Slice0/Obligations.lean ====
section
/-! DEFINITION. The statements for the provers. Each docstring names the rules it rests on; where a clause rests on a
decision the spec marks as its own (D1 to D29) or on a choice of this model's log, it says so. -/

open Sys2Proof Sys2Proof.Machine

/-! ## The instructions: what each does when it completes, and what it leaves alone -/

/-- LOADLI (R120): its word; with a valid register it completes, the low half becomes the immediate, the high half is
kept, and nothing else changes (no flag exists, R24); with `r >= N` it fails with DEC_REGISTER and writes nothing. With
`r = PCI` the value read is the advanced PC, as for any register. The word's opcode and bit positions are the spec's own
choice (D1, D2; entries 8, 9). That the check is part of the meaning and its address `x[PCI] - 4` is the model's
deduction (entry 5). -/
def Obligations.LoadliReplacesLowHalf : Prop :=
  ∀ (s : State) (r : RegIndex) (imm16 : Imm16),
    decode .default ((0x01 : Byte) ++ r ++ imm16) = .ok (.loadli r imm16) ∧
    (r.toNat < s.nRegs → ∃ t, exec (.loadli r imm16) s = .next t ∧
      (t.readReg r.toNat).toNat = (s.readReg r.toNat).toNat / 65536 * 65536 + imm16.toNat ∧
      SameRegsBut [r.toNat] s t ∧ SameMemory s t ∧ SameSetup s t) ∧
    (s.nRegs ≤ r.toNat → exec (.loadli r imm16) s = .fault (.execute .decRegister (s.pc - 4) s))

/-- LOADHI (R121): its word; with a valid register it completes, the high half becomes the immediate, the low half is
kept, and nothing else changes; with `r >= N` it fails with DEC_REGISTER and writes nothing. The word's opcode and bit
positions are the spec's own choice (D1, D2; entries 8, 9). That the check is part of the meaning and its address
`x[PCI] - 4` is the model's deduction (entry 5). -/
def Obligations.LoadhiReplacesHighHalf : Prop :=
  ∀ (s : State) (r : RegIndex) (imm16 : Imm16),
    decode .default ((0x02 : Byte) ++ r ++ imm16) = .ok (.loadhi r imm16) ∧
    (r.toNat < s.nRegs → ∃ t, exec (.loadhi r imm16) s = .next t ∧
      (t.readReg r.toNat).toNat = imm16.toNat * 65536 + (s.readReg r.toNat).toNat % 65536 ∧
      SameRegsBut [r.toNat] s t ∧ SameMemory s t ∧ SameSetup s t) ∧
    (s.nRegs ≤ r.toNat → exec (.loadhi r imm16) s = .fault (.execute .decRegister (s.pc - 4) s))

/-- ADD (R130): its word; with valid registers it completes, the destination becomes the sum modulo 2^32 of the two
sources as they were before, also where it is one of them, and nothing else changes; with an index `>= N` it fails with
DEC_REGISTER and writes nothing. The word's opcode and bit positions are the spec's own choice (D1, D2; entries 8, 9).
That the check is part of the meaning and its address `x[PCI] - 4` is the model's deduction (entry 5). -/
def Obligations.AddWraps : Prop :=
  ∀ (s : State) (r1 r2 r3 : RegIndex),
    decode .default ((0x03 : Byte) ++ r1 ++ r2 ++ r3) = .ok (.add r1 r2 r3) ∧
    (r1.toNat < s.nRegs → r2.toNat < s.nRegs → r3.toNat < s.nRegs → ∃ t, exec (.add r1 r2 r3) s = .next t ∧
      (t.readReg r3.toNat).toNat = ((s.readReg r1.toNat).toNat + (s.readReg r2.toNat).toNat) % 2 ^ 32 ∧
      SameRegsBut [r3.toNat] s t ∧ SameMemory s t ∧ SameSetup s t) ∧
    (s.nRegs ≤ r1.toNat ∨ s.nRegs ≤ r2.toNat ∨ s.nRegs ≤ r3.toNat →
      exec (.add r1 r2 r3) s = .fault (.execute .decRegister (s.pc - 4) s))

/-- SUB (R131): its word; with valid registers it completes, the destination becomes minuend minus subtrahend modulo
2^32, and nothing else changes; with an index `>= N` it fails with DEC_REGISTER and writes nothing. The word's opcode
and bit positions are the spec's own choice (D1, D2; entries 8, 9). That the check is part of the meaning and its
address `x[PCI] - 4` is the model's deduction (entry 5). -/
def Obligations.SubWraps : Prop :=
  ∀ (s : State) (r1 r2 r3 : RegIndex),
    decode .default ((0x04 : Byte) ++ r1 ++ r2 ++ r3) = .ok (.sub r1 r2 r3) ∧
    (r1.toNat < s.nRegs → r2.toNat < s.nRegs → r3.toNat < s.nRegs → ∃ t, exec (.sub r1 r2 r3) s = .next t ∧
      (t.readReg r3.toNat).toNat =
        ((s.readReg r1.toNat).toNat + 2 ^ 32 - (s.readReg r2.toNat).toNat) % 2 ^ 32 ∧
      SameRegsBut [r3.toNat] s t ∧ SameMemory s t ∧ SameSetup s t) ∧
    (s.nRegs ≤ r1.toNat ∨ s.nRegs ≤ r2.toNat ∨ s.nRegs ≤ r3.toNat →
      exec (.sub r1 r2 r3) s = .fault (.execute .decRegister (s.pc - 4) s))

/-- The effective address of STORE and LOAD (R139): base plus signed offset, modulo 2^32. The wrap is the spec's own
choice (D12, entry 12), the extension general knowledge (R8, entry 16). -/
def Obligations.EffectiveAddressIsBasePlusOffset : Prop :=
  ∀ (base : Word) (offset : Byte),
    ((effectiveAddress base offset).toNat : Int) = ((base.toNat : Int) + offset.toInt) % 2 ^ 32

/-- STORE (R140): with valid registers and an effective address backed by an aligned word of a memory device, it
completes; that word becomes `x[r2]`, and no other byte and no register changes. The address's wrap (D12, entry 12) and
its translation (D8, entry 13) are the spec's own choice; byte order and sign extension are general knowledge (entry
16). -/
def Obligations.StoreWritesOneWord : Prop :=
  ∀ (s : State) (r1 r2 : RegIndex) (offset : Byte) (m l : Nat), s.Inv →
    r1.toNat < s.nRegs → r2.toNat < s.nRegs →
    WordAt s (effectiveAddress (s.readReg r1.toNat) offset) m l →
    ∃ t, exec (.store r1 r2 offset) s = .next t ∧ HoldsWord t m l (s.readReg r2.toNat) ∧
      SameMemoryBut m l 4 s t ∧ SameRegs s t ∧ SameSetup s t

/-- LOAD (R141): with valid registers and an effective address backed by an aligned word of a memory device, it
completes; `x[r2]` becomes that word, and no other register and no byte changes. The base is read first, so `r1` may be
`r2`. The address's wrap (D12, entry 12) and its translation (D8, entry 13) are the spec's own choice; byte order and
sign extension are general knowledge (entry 16). -/
def Obligations.LoadReadsOneWord : Prop :=
  ∀ (s : State) (r1 r2 : RegIndex) (offset : Byte) (m l : Nat),
    r1.toNat < s.nRegs → r2.toNat < s.nRegs →
    WordAt s (effectiveAddress (s.readReg r1.toNat) offset) m l →
    ∃ t v, exec (.load r1 r2 offset) s = .next t ∧ HoldsWord s m l v ∧ t.readReg r2.toNat = v ∧
      SameRegsBut [r2.toNat] s t ∧ SameMemory s t ∧ SameSetup s t

/-- PUSH (R150): with a valid register and the word below SP backed, it completes; SP is decremented by 4, the word at
the new SP becomes `x[r1]` as read after the decrement, and no other byte or register changes. The order of the two
statements (D14, entry 11), the wrap (D12, entry 12) and the translation (D8, entry 13) are the spec's own choice; byte
order is general knowledge (entry 16). -/
def Obligations.PushStoresBelowSp : Prop :=
  ∀ (s : State) (r1 : RegIndex) (m l : Nat), s.Inv → r1.toNat < s.nRegs → WordAt s (s.sp - 4) m l →
    ∃ t, exec (.push r1) s = .next t ∧ t.sp = s.sp - 4 ∧
      HoldsWord t m l (if r1.toNat = s.spi then s.sp - 4 else s.readReg r1.toNat) ∧
      SameMemoryBut m l 4 s t ∧ SameRegsBut [s.spi] s t ∧ SameSetup s t

/-- POP (R151): with a valid register and the word at SP backed, it completes; `x[r1]` becomes the word at SP, then SP
is incremented by 4 as it then stands, so POP SP leaves the word plus 4 in SP; no byte and no other register changes.
The order (D14, entry 11), the wrap (D12, entry 12) and the translation (D8, entry 13) are the spec's own choice; byte
order is general knowledge (entry 16). -/
def Obligations.PopLoadsFromSp : Prop :=
  ∀ (s : State) (r1 : RegIndex) (m l : Nat), s.Inv → r1.toNat < s.nRegs → WordAt s s.sp m l →
    ∃ t v, exec (.pop r1) s = .next t ∧ HoldsWord s m l v ∧
      t.sp = (if r1.toNat = s.spi then v else s.sp) + 4 ∧ (r1.toNat ≠ s.spi → t.readReg r1.toNat = v) ∧
      SameRegsBut [r1.toNat, s.spi] s t ∧ SameMemory s t ∧ SameSetup s t

/-! ## The instructions: when each fails, and what a failure leaves -/

/-- R103: an instruction that references an index `>= N` fails with DEC_REGISTER before any effect, whatever else would
fail (R164, D16, entry 14); in a cycle only PC has changed, and the diagnostic address is `pc0` (R161; D15, entry 20).
The first clause, the check inside `exec` with the address `x[PCI] - 4` in any state, is the model's deduction (entry
5). The wrap of `+ 4` is the spec's own choice (D12, entry 12). -/
def Obligations.InvalidIndexFailsBeforeAnyEffect : Prop :=
  (∀ (i : Instr) (s : State), (∃ r ∈ i.referenced, s.nRegs ≤ r.toNat) →
    exec i s = .fault (.execute .decRegister (s.pc - 4) s)) ∧
  (∀ (s : State) (w : Word) (i : Instr), s.Inv → s.memRead s.pc = .ok w → decode s.soc.opcodeMap w = .ok i →
    (∃ r ∈ i.referenced, s.nRegs ≤ r.toNat) →
    ∃ t, step s = .fault (.execute .decRegister s.pc t) ∧ t.pc = s.pc + 4 ∧ SameRegsBut [s.pci] s t ∧
      SameMemory s t ∧ SameSetup s t)

/-- R140, R141, R150, R151, R163: where the memory access fails, the instruction fails with that kind and the Bus
address; STORE, LOAD and POP leave the state as it stood, PUSH leaves SP decremented (D14, entry 11) and nothing else
changed. Which kind applies rests on D8, D16, D26 and D10 (entries 13, 14, 15), the address on D12 (entry 12) and on the
general knowledge of the sign extension (entry 16), kind and address as such on D15 (entry 20). -/
def Obligations.FailingAccessFailsTheInstruction : Prop :=
  ∀ (s : State) (r1 r2 : RegIndex) (offset : Byte) (k : FailKind), s.Inv → r1.toNat < s.nRegs → r2.toNat < s.nRegs →
    (AccessFails s (effectiveAddress (s.readReg r1.toNat) offset) k →
      exec (.store r1 r2 offset) s = .fault (.execute k (effectiveAddress (s.readReg r1.toNat) offset) s) ∧
      exec (.load r1 r2 offset) s = .fault (.execute k (effectiveAddress (s.readReg r1.toNat) offset) s)) ∧
    (AccessFails s s.sp k → exec (.pop r1) s = .fault (.execute k s.sp s)) ∧
    (AccessFails s (s.sp - 4) k → ∃ t, exec (.push r1) s = .fault (.execute k (s.sp - 4) t) ∧ t.sp = s.sp - 4 ∧
      SameRegsBut [s.spi] s t ∧ SameMemory s t ∧ SameSetup s t)

/-- R162's table: an instruction fails only with the kinds listed for it (the kinds are the spec's own refinement, D15,
entry 20). And no instruction and no step is ever refused: every row of the opcode table has its meaning. -/
def Obligations.FailureKindsAreThoseListed : Prop :=
  (∀ (i : Instr) (s : State) (f : Fault), exec i s = .fault f →
    ∃ k a t, f = .execute k a t ∧ k ∈ failKinds i) ∧
  (∀ (i : Instr) (s : State) (r : Refusal), exec i s ≠ .refused r) ∧
  (∀ (s : State) (r : Refusal), step s ≠ .refused r)

/-- R163 with R161, of every failing cycle. A FETCH failure leaves the state; its address is `pc0`. An EXECUTE failure
leaves PC advanced, memory as before and every register but PC and SP as before, and is one of three: an unmapped opcode
(DEC_OPCODE at `pc0`, SP as before); a decoded instruction with an index `>= N` (DEC_REGISTER at `pc0`, SP as before);
or a decoded instruction whose one Bus access fails, with the kind that applies, at that access's address, SP
decremented by 4 exactly when the instruction is PUSH. The spec's own choices in it: PUSH's decrement stays (D14, entry
11), the wrap (D12, entry 12), the kind of a failing access (D8, D16, D26, D10; entries 13, 14, 15), kind and address as
such (D15, entry 20); the sign extension is general knowledge (entry 16). -/
def Obligations.FailuresArePrecise : Prop :=
  ∀ (s : State), s.Inv →
    (∀ k a t, step s = .fault (.fetch k a t) → AccessFails s s.pc k ∧ a = s.pc ∧ t = s) ∧
    (∀ k a t, step s = .fault (.execute k a t) →
      t.pc = s.pc + 4 ∧ SameRegsBut [s.pci, s.spi] s t ∧ SameMemory s t ∧ SameSetup s t ∧
      ∃ w, s.memRead s.pc = .ok w ∧
        ((k = .decOpcode ∧ opcodeField w ∉ s.soc.opcodeMap.codes ∧ a = s.pc ∧ t.sp = s.sp) ∨
          (∃ i, decode s.soc.opcodeMap w = .ok i ∧
            ((k = .decRegister ∧ (∃ r ∈ i.referenced, s.nRegs ≤ r.toNat) ∧ a = s.pc ∧ t.sp = s.sp) ∨
              (AccessFails s a k ∧ accessAddr s i = some a ∧ (∀ r ∈ i.referenced, r.toNat < s.nRegs) ∧
                ((∃ r1, i = .push r1) → t.sp = s.sp - 4) ∧ ((∀ r1, i ≠ .push r1) → t.sp = s.sp))))))

/-! ## Whole-machine frames -/

/-- 10_state.md section 1: an instruction that completes writes no register but those the table's "written by" column
gives it. -/
def Obligations.OnlyListedRegistersAreWritten : Prop :=
  ∀ (i : Instr) (s t : State), exec i s = .next t → SameRegsBut (regsWritten s.nRegs i) s t

/-- 10_state.md section 1: memory is written by STORE and PUSH alone, and never by a failing instruction (R54, R163). -/
def Obligations.OnlyStoreAndPushWriteMemory : Prop :=
  (∀ (i : Instr) (s t : State), (∀ r1 r2 offset, i ≠ .store r1 r2 offset) → (∀ r1, i ≠ .push r1) →
    exec i s = .next t → SameMemory s t) ∧
  (∀ (i : Instr) (s : State) (k : FailKind) (a : Word) (t : State), exec i s = .fault (.execute k a t) →
    SameMemory s t)

/-- R5, R25, R28: no call of `execute()`, failing or not, changes a construction parameter, the register count or the
Bus registry. That the parameters stand in State is the model's choice (entry 1). -/
def Obligations.ExecuteKeepsSetup : Prop := ∀ s : State, SameSetup s (execute s).after

/-- R107, R108: in a completed cycle PC goes to the next word unless the instruction itself wrote `x[PCI]`. The wrap of
`+ 4` is the spec's own choice (D12, entry 12). -/
def Obligations.ControlFlowsOnlyThroughPcWrites : Prop :=
  ∀ (s t : State) (w : Word) (i : Instr), s.Inv → s.memRead s.pc = .ok w → decode s.soc.opcodeMap w = .ok i →
    s.pci ∉ regsWritten s.nRegs i → step s = .next t → t.pc = s.pc + 4

/-! ## The cycle -/

/-- R105: when the bytes of the backed, aligned word at PC decode to an instruction, the step is that instruction's
meaning at the state with PC advanced by 4 (R101) and nothing else changed. The wrap (D12, entry 12), the translation
(D8, entry 13) and the bit positions (D2, entry 9) are the spec's own choice; byte order is general knowledge (entry
16). -/
def Obligations.StepRunsTheDecodedInstruction : Prop :=
  ∀ (s : State) (m l : Nat) (b0 b1 b2 b3 : Byte) (i : Instr), s.Inv → WordAt s s.pc m l →
    s.byteAt m l = some b0 → s.byteAt m (l + 1) = some b1 → s.byteAt m (l + 2) = some b2 →
    s.byteAt m (l + 3) = some b3 →
    decodeBytes s.soc.opcodeMap s.soc.endian [b0, b1, b2, b3] = .ok (i, []) →
    ∃ s', step s = exec i s' ∧ s'.pc = s.pc + 4 ∧ SameRegsBut [s.pci] s s' ∧ SameMemory s s' ∧ SameSetup s s'

/-- R100: the fetch is the Bus read at PC; where it fails, the cycle returns FETCH with that kind and the state is as
before; where it succeeds, the cycle goes on with the word. Only the four kinds of R100 can occur, each exactly where it
says; the address is `pc0` (R161; D15, entry 20). Which kind applies is the spec's own choice: translation (D8, entry
13), alignment before bounds over unbounded integers (D16, D26; entry 14), the CPU as a target (D10, entry 15). -/
def Obligations.FetchFailureChangesNothing : Prop :=
  ∀ (s : State), s.Inv →
    (∀ k, AccessFails s s.pc k → step s = .fault (.fetch k s.pc s)) ∧
    (∀ w, s.memRead s.pc = .ok w → step s = runWord w s.advance) ∧
    (∀ k a t, step s = .fault (.fetch k a t) → AccessFails s s.pc k ∧ a = s.pc ∧ t = s)

/-- R102: a fetched word whose opcode byte is not in OPCODE_MAP fails the cycle with EXECUTE, DEC_OPCODE, and only the
advance of PC has happened; the address is `pc0` (R161; D15, entry 20). The opcode's place in bits 31 to 24 (D2, entry
9) and the wrap of `+ 4` (D12, entry 12) are the spec's own choice. -/
def Obligations.UnmappedOpcodeOnlyAdvancesPc : Prop :=
  ∀ (s : State) (w : Word), s.Inv → s.memRead s.pc = .ok w → opcodeField w ∉ s.soc.opcodeMap.codes →
    ∃ t, step s = .fault (.execute .decOpcode s.pc t) ∧ t.pc = s.pc + 4 ∧ SameRegsBut [s.pci] s t ∧
      SameMemory s t ∧ SameSetup s t

/-- R65: a STORE or PUSH that writes the word at the address PC then holds is seen by the next fetch. PUSH's order is
the spec's own choice (D14, entry 11). -/
def Obligations.StoresAreSeenByFetch : Prop :=
  (∀ (s t : State) (r1 r2 : RegIndex) (offset : Byte), s.Inv → exec (.store r1 r2 offset) s = .next t →
    t.pc = effectiveAddress (s.readReg r1.toNat) offset → t.fetch = .ok (s.readReg r2.toNat)) ∧
  (∀ (s t : State) (r1 : RegIndex), s.Inv → exec (.push r1) s = .next t → t.pc = t.sp →
    t.fetch = .ok (t.readReg r1.toNat))

/-- The word that stands for an opcode-table row, placed at PC as the host's loader places it (R193 step 4), is the one
the next fetch reads. The convention is the model's (entry 24). It rests on the translation of addresses (D8, entry 13).
-/
def Obligations.PlacedWordIsFetched : Prop :=
  ∀ (s : State) (nbits w m l : Nat), s.Inv → WordAt s s.pc m l →
    (s.withFetchWord nbits w).fetch = .ok (BitVec.ofNat 32 (w % 2 ^ nbits)) ∧
      SameRegs s (s.withFetchWord nbits w) ∧ SameMemoryBut m l 4 s (s.withFetchWord nbits w)

/-! ## Encoding -/

/-- R85: the decoder, opcode by opcode, for every injective map: the field values are the word's bits as numbers; any
other opcode byte gives DEC_OPCODE. The bit positions (D2, entry 9) and that PUSH and POP ignore bits 15 to 0 (D13,
entry 10) are the spec's own choice. -/
def Obligations.DecodeFollowsTheTable : Prop :=
  ∀ (m : OpcodeMap) (w : Word), m.wf = true →
    (w.toNat / 2 ^ 24 = m.loadli.toNat →
      decode m w = .ok (.loadli (BitVec.ofNat 8 (w.toNat / 2 ^ 16)) (BitVec.ofNat 16 w.toNat))) ∧
    (w.toNat / 2 ^ 24 = m.loadhi.toNat →
      decode m w = .ok (.loadhi (BitVec.ofNat 8 (w.toNat / 2 ^ 16)) (BitVec.ofNat 16 w.toNat))) ∧
    (w.toNat / 2 ^ 24 = m.add.toNat →
      decode m w = .ok (.add (BitVec.ofNat 8 (w.toNat / 2 ^ 16)) (BitVec.ofNat 8 (w.toNat / 2 ^ 8))
        (BitVec.ofNat 8 w.toNat))) ∧
    (w.toNat / 2 ^ 24 = m.sub.toNat →
      decode m w = .ok (.sub (BitVec.ofNat 8 (w.toNat / 2 ^ 16)) (BitVec.ofNat 8 (w.toNat / 2 ^ 8))
        (BitVec.ofNat 8 w.toNat))) ∧
    (w.toNat / 2 ^ 24 = m.store.toNat →
      decode m w = .ok (.store (BitVec.ofNat 8 (w.toNat / 2 ^ 16)) (BitVec.ofNat 8 (w.toNat / 2 ^ 8))
        (BitVec.ofNat 8 w.toNat))) ∧
    (w.toNat / 2 ^ 24 = m.load.toNat →
      decode m w = .ok (.load (BitVec.ofNat 8 (w.toNat / 2 ^ 16)) (BitVec.ofNat 8 (w.toNat / 2 ^ 8))
        (BitVec.ofNat 8 w.toNat))) ∧
    (w.toNat / 2 ^ 24 = m.push.toNat → decode m w = .ok (.push (BitVec.ofNat 8 (w.toNat / 2 ^ 16)))) ∧
    (w.toNat / 2 ^ 24 = m.pop.toNat → decode m w = .ok (.pop (BitVec.ofNat 8 (w.toNat / 2 ^ 16)))) ∧
    ((∀ c ∈ m.codes, w.toNat / 2 ^ 24 ≠ c.toNat) →
      decode m w = .error (.decOpcode (BitVec.ofNat 8 (w.toNat / 2 ^ 24))))

/-- Decode and encode agree: for every injective map and every instruction with every operand, decoding its canonical
word gives it back, and so does decoding its memory image in either byte order, with the bytes after it left over. The
bit positions (D2, entry 9) and the zeros in PUSH's and POP's unused bits (D13, entry 10) are the spec's own choice;
byte order is general knowledge (entry 16). -/
def Obligations.DecodeOfEncodeIsTheInstruction : Prop :=
  ∀ (m : OpcodeMap) (i : Instr), m.wf = true →
    decode m (encode m i) = .ok i ∧
      ∀ (e : Endian) (rest : List Byte), decodeBytes m e (splitBytes e 4 (encode m i) ++ rest) = .ok (i, rest)

/-- R86: a word that decodes to an instruction is its canonical word, except that PUSH and POP ignore bits 15..0, which
their canonical words have zero; any value there decodes the same (D13, the spec's own choice, entry 10). The bit
positions are D2's (entry 9). -/
def Obligations.OnlyPushAndPopIgnoreBits : Prop :=
  ∀ (m : OpcodeMap) (w : Word) (i : Instr), decode m w = .ok i →
    ((∀ r, i ≠ .push r ∧ i ≠ .pop r) → encode m i = w) ∧
    ((∃ r, i = .push r ∨ i = .pop r) →
      (encode m i).toNat = w.toNat / 65536 * 65536 ∧
      ∀ v : Word, v.toNat / 65536 = w.toNat / 65536 → decode m v = .ok i)

/-- Words written out from R81's formats and R84's default values, one per instruction (95_test_vectors.md). Bit
positions and opcode values are the spec's own choice (D1, D2; entries 8 and 9), and so is it that the PUSH word, whose
unused bits are not zero, decodes (D13, entry 10). -/
def Obligations.WordsOfTheTableDecode : Prop :=
  decodeTableWord 32 0x01001234 = some (.loadli 0 0x1234) ∧
  decodeTableWord 32 0x0200ABCD = some (.loadhi 0 0xABCD) ∧
  decodeTableWord 32 0x03000102 = some (.add 0 1 2) ∧
  decodeTableWord 32 0x04000101 = some (.sub 0 1 1) ∧
  decodeTableWord 32 0x050100FC = some (.store 1 0 0xFC) ∧
  decodeTableWord 32 0x060102FC = some (.load 1 2 0xFC) ∧
  decodeTableWord 32 0x0700FFFF = some (.push 0) ∧
  decodeTableWord 32 0x08010000 = some (.pop 1) ∧
  decodeTableWord 32 0xFF000000 = none

/-- R87: under the default map exactly the opcode bytes 0x01 .. 0x08 are instructions; the other 248 are illegal (the
values are the spec's own choice, D1, entry 8, and so is the opcode's place, D2, entry 9). -/
def Obligations.EightOpcodesAreLegal : Prop :=
  ∀ w : Word, (∃ i, decode .default w = .ok i) ↔ (1 ≤ w.toNat / 2 ^ 24 ∧ w.toNat / 2 ^ 24 ≤ 8)

/-- R82, R88: the memory image under BIG has the opcode at the lowest address and under LITTLE at the highest; the same
bytes in mirrored order are the same instruction. The bit positions are the spec's own choice (D2, entry 9), and which
end BIG and LITTLE name is general knowledge (entry 16). -/
def Obligations.MemoryImagesMirror : Prop :=
  ∀ (m : OpcodeMap) (b0 b1 b2 b3 : Byte) (rest : List Byte),
    decodeBytes m .big (b0 :: b1 :: b2 :: b3 :: rest) = decodeBytes m .little (b3 :: b2 :: b1 :: b0 :: rest) ∧
    (∀ i rest', decodeBytes m .big (b0 :: b1 :: b2 :: b3 :: rest) = .ok (i, rest') →
      i.opcode m = b0 ∧ rest' = rest)

/-! ## Byte order and the memory device -/

/-- R55: BIG puts the most significant byte first, LITTLE the least; `Split` is the inverse of `Assemble`. The meaning
of the two settings is general knowledge (entry 16). -/
def Obligations.ByteOrderIsStandard : Prop :=
  (∀ b0 b1 b2 b3 : Byte, assembleBytes .big [b0, b1, b2, b3] = b0 ++ b1 ++ b2 ++ b3 ∧
    assembleBytes .little [b0, b1, b2, b3] = b3 ++ b2 ++ b1 ++ b0 ∧
    assembleBytes .big [b0, b1] = (b0 ++ b1).setWidth 32 ∧ assembleBytes .little [b0, b1] = (b1 ++ b0).setWidth 32 ∧
    ∀ e, assembleBytes e [b0] = b0.setWidth 32) ∧
  (∀ (e : Endian) (bs : List Byte), bs.length ≤ 4 → splitBytes e bs.length (assembleBytes e bs) = bs) ∧
  (∀ (e : Endian) (n : Width) (v : Word), v.toNat < 2 ^ (8 * n.bytes) →
    assembleBytes e (splitBytes e n.bytes v) = v)

/-- R54: a local write fails when misaligned, then when out of bounds; otherwise it stores `Split` of the value in
exactly its `n` bytes and no other byte changes. The device's construction never changes. Alignment before bounds and
the unbounded sum are the spec's own choice (D16, D26; entry 14); that a narrow write drops the value's high bits is the
model's (entry 17). -/
def Obligations.LocalWriteStoresExactlyItsBytes : Prop :=
  ∀ (e : Endian) (d : Memory) (l : Nat) (n : Width) (v : Word), d.wf = true →
    (l % n.bytes ≠ 0 → d.localWrite e l n v = .fail .devMisaligned) ∧
    (l % n.bytes = 0 → d.size < l + n.bytes → d.localWrite e l n v = .fail .devBounds) ∧
    (l % n.bytes = 0 → l + n.bytes ≤ d.size →
      ∃ d', d.localWrite e l n v = .ok d' ∧
        (∀ k, k < n.bytes → (splitBytes e n.bytes v)[k]? = some (d'.readByte (l + k))) ∧
        (∀ l', (l' < l ∨ l + n.bytes ≤ l') → d'.readByte l' = d.readByte l') ∧
        d'.size = d.size ∧ d'.base = d.base ∧ d'.fill = d.fill ∧ d'.wf = true)

/-- R53, R56: a local read fails as the write does; after a write of a value that fits the width, the read at the same
place and width gives that value, in either byte order. Alignment before bounds and the unbounded sum are the spec's own
choice (D16, D26; entry 14). -/
def Obligations.WriteThenReadReturnsTheValue : Prop :=
  ∀ (e : Endian) (d : Memory) (l : Nat) (n : Width) (v : Word), d.wf = true → v.toNat < 2 ^ (8 * n.bytes) →
    (l % n.bytes ≠ 0 → d.localRead e l n = .fail .devMisaligned) ∧
    (l % n.bytes = 0 → d.size < l + n.bytes → d.localRead e l n = .fail .devBounds) ∧
    (l % n.bytes = 0 → l + n.bytes ≤ d.size →
      ∃ d', d.localWrite e l n v = .ok d' ∧ d'.localRead e l n = .ok v)

/-- R57: narrower reads of a stored word see its bytes in the system's order. Which byte BIG and LITTLE put where is
general knowledge (entry 16); that a narrow value is held zero-extended is the model's choice (entry 17). -/
def Obligations.NarrowReadsSeeSocOrder : Prop :=
  ∀ (d : Memory) (l : Nat) (v : Word), d.wf = true → l % 4 = 0 → l + 4 ≤ d.size →
    (∃ d', d.localWrite .big l .word v = .ok d' ∧
      d'.localRead .big l .half = .ok ((v.extractLsb' 16 16).setWidth 32) ∧
      d'.localRead .big (l + 2) .half = .ok ((v.extractLsb' 0 16).setWidth 32) ∧
      d'.localRead .big (l + 3) .byte = .ok ((v.extractLsb' 0 8).setWidth 32)) ∧
    (∃ d', d.localWrite .little l .word v = .ok d' ∧
      d'.localRead .little l .half = .ok ((v.extractLsb' 0 16).setWidth 32) ∧
      d'.localRead .little (l + 2) .half = .ok ((v.extractLsb' 16 16).setWidth 32) ∧
      d'.localRead .little (l + 3) .byte = .ok ((v.extractLsb' 24 8).setWidth 32))

/-! ## The Bus -/

/-- R44: the first context in registry order that is addressable and whose range holds the address gets the operation,
with the address unchanged, and its result is returned; with no such context the operation fails with ROUTING and no
side effect. That addressable means that a range is present is the spec's own choice (D11, entry 19). -/
def Obligations.FirstMatchingContextIsRouted : Prop :=
  (∀ (s : State) (a v : Word) (dev : Device), RoutesTo s a dev →
    s.memRead a = s.devRead dev a ∧ s.memWrite a v = s.devWrite dev a v) ∧
  (∀ (s : State) (a v : Word), Unrouted s a →
    s.memRead a = .fail .routing ∧ s.memWrite a v = .fail .routing ∧
    (request .read a v s).after = s ∧ (request .write a v s).after = s) ∧
  (∀ (s : State) (a : Word), Unrouted s a ∨ ∃ dev, RoutesTo s a dev)

/-- R47, for any registry, of one context `c` of it. Every address from the start to the end of its range, both
included, routes to it unless an earlier context holds the address, whatever later ones hold, so of overlapping ranges
the first attached wins. The address after the end fails with ROUTING when no other context holds it. A context whose
range has `start > end` (D25, entry 19), or that has no range (not addressable: D11, entry 19), routes no address: the
registry routes as it does without it, and an access that no other context holds fails with ROUTING. -/
def Obligations.RangeBoundsAreInclusive : Prop :=
  ∀ (s : State) (before : List DeviceContext) (c : DeviceContext) (rest : List DeviceContext) (a v : Word),
    s.registry = before ++ c :: rest →
    (∀ r, c.range = some r → r.start.toNat ≤ a.toNat → a.toNat ≤ r.stop.toNat → (∀ b ∈ before, ¬ HoldsAddr b a) →
      s.route a = some c.device ∧ s.memRead a = s.devRead c.device a ∧ s.memWrite a v = s.devWrite c.device a v) ∧
    (∀ r, c.range = some r → r.stop.toNat + 1 < 2 ^ 32 → (∀ b ∈ before ++ rest, ¬ HoldsAddr b (r.stop + 1)) →
      s.memRead (r.stop + 1) = .fail .routing ∧ s.memWrite (r.stop + 1) v = .fail .routing) ∧
    ((c.range = none ∨ ∃ r, c.range = some r ∧ r.stop.toNat < r.start.toNat) →
      s.route a = ({ s with registry := before ++ rest } : State).route a ∧
      ((∀ b ∈ before ++ rest, ¬ HoldsAddr b a) → s.memRead a = .fail .routing ∧ s.memWrite a v = .fail .routing))

/-- R45, R49 to R53: a Bus read answers the word that lies at the translated address in the system's byte order, or the
one failure kind that applies. The translation (D8, entry 13), alignment before bounds over unbounded integers (D16,
D26; entry 14) and the CPU as a target (D10, entry 15) are the spec's own choice; byte order is general knowledge (entry
16). -/
def Obligations.BusReadAnswersTheWordOrTheKind : Prop :=
  ∀ (s : State) (a : Word), s.Inv →
    (∀ m l, WordAt s a m l → ∃ v, s.memRead a = .ok v ∧ HoldsWord s m l v) ∧
    (∀ k, s.memRead a = .fail k ↔ AccessFails s a k)

/-- R46, R51, R54: a Bus write to a backed, aligned word changes that word and nothing else; a failing one changes
nothing, and fails with the kind that applies. The translation (D8, entry 13), alignment before bounds over unbounded
integers (D16, D26; entry 14) and the CPU as a target (D10, entry 15) are the spec's own choice; byte order is general
knowledge (entry 16). -/
def Obligations.BusWriteChangesOneWord : Prop :=
  ∀ (s : State) (a v : Word), s.Inv →
    (∀ m l, WordAt s a m l → ∃ t, s.memWrite a v = .ok t ∧ HoldsWord t m l v ∧ SameMemoryBut m l 4 s t ∧
      SameRegs s t ∧ SameSetup s t) ∧
    (∀ k, s.memWrite a v = .fail k ↔ AccessFails s a k) ∧
    (∀ k, AccessFails s a k → request .write a v s = { result := .fail k, after := s })

/-- R62, of the CPU's and the host's accesses over the Bus: after a Bus write, the same address reads the value written,
and every other address reads as before. The translation is the spec's own choice (D8, entry 13), and so is it that the
host acts between calls only (D27, entry 22). -/
def Obligations.ReadsSeeTheMostRecentWrite : Prop :=
  ∀ (s t : State) (a v : Word), s.Inv → s.memWrite a v = .ok t →
    t.memRead a = .ok v ∧ ∀ b, b ≠ a → t.memRead b = s.memRead b

/-! ## The host's operations -/

/-- R41: attaching an attached device fails and leaves the registry; otherwise the context is appended, whatever its
range, `addressable` exactly when the range is present. The last two are the spec's own choice (inverted ranges D25,
addressable D11; entry 19); that a device's identity is its place in the list is the model's (entry 7). -/
def Obligations.AttachAppendsOnce : Prop :=
  ∀ (s : State) (role : Role) (dev : Device) (range : Option AddrRange),
    ((∃ c ∈ s.registry, c.device = dev) → attach role dev range s = { result := .fail .attachDuplicate, after := s }) ∧
    ((∀ c ∈ s.registry, c.device ≠ dev) →
      (attach role dev range s).result = .ok () ∧
      (∃ c : DeviceContext, c.role = role ∧ c.device = dev ∧ c.range = range ∧
        (c.addressable = true ↔ ∃ r, range = some r) ∧ (attach role dev range s).after.registry = s.registry ++ [c]) ∧
      SameRegs s (attach role dev range s).after ∧ SameMemory s (attach role dev range s).after ∧
      (attach role dev range s).after.soc = s.soc)

/-- R42: detaching removes the first context of the device and keeps the order of the others, or fails and changes
nothing. That a device's identity is its place in the list is the model's choice (entry 7). -/
def Obligations.DetachRemovesTheFirst : Prop :=
  ∀ (s : State) (dev : Device),
    (∀ before c rest, s.registry = before ++ c :: rest → (∀ b ∈ before, b.device ≠ dev) → c.device = dev →
      (detach dev s).result = .ok () ∧ (detach dev s).after.registry = before ++ rest ∧
      SameRegs s (detach dev s).after ∧ SameMemory s (detach dev s).after ∧ (detach dev s).after.soc = s.soc) ∧
    ((∀ c ∈ s.registry, c.device ≠ dev) → detach dev s = { result := .fail .detachNotFound, after := s })

/-- R43: a READ or WRITE request routes as R44 gives and answers the device's result; RESET ignores address and data and
performs `resetAll()`. -/
def Obligations.RequestRoutesOrResets : Prop :=
  ∀ (s : State) (a d : Word),
    (∀ v, s.memRead a = .ok v → request .read a d s = { result := .ok (some v), after := s }) ∧
    (∀ k, s.memRead a = .fail k → request .read a d s = { result := .fail k, after := s }) ∧
    (∀ t, s.memWrite a d = .ok t → request .write a d s = { result := .ok none, after := t }) ∧
    (∀ k, s.memWrite a d = .fail k → request .write a d s = { result := .fail k, after := s }) ∧
    (request .reset a d s).after = (resetAll s).after ∧
    ((request .reset a d s).result = .ok none ↔ (resetAll s).result = .ok ())

/-- R58, R29: the direct port reaches a memory device by local address, whatever the Bus holds. A misaligned access
fails with DEV_MISALIGNED, an aligned one out of bounds with DEV_BOUNDS, and changes nothing; every other access
succeeds. A read answers the value of the device's bytes, a write is read back, and changes its own bytes only;
`writeWord` stores the word's image. The raw view lists the device's bytes in order. The port and its checks are the
spec's own choice (D22, entry 17), and so is the order of the checks and the unbounded sum (D16, D26; entry 14); the
byte order is general knowledge (entry 16). -/
def Obligations.DirectPortBypassesTheBus : Prop :=
  ∀ (s : State) (m l : Nat) (n : Width) (v : Word) (d : Memory), s.Inv → s.mems[m]? = some d →
    (l % n.bytes ≠ 0 → directRead m l n s = .fail .devMisaligned ∧
      directWrite m l n v s = { result := .fail .devMisaligned, after := s }) ∧
    (l % n.bytes = 0 → d.size < l + n.bytes → directRead m l n s = .fail .devBounds ∧
      directWrite m l n v s = { result := .fail .devBounds, after := s }) ∧
    (l % n.bytes = 0 → l + n.bytes ≤ d.size →
      (∃ u, directRead m l n s = .ok u ∧ u.toNat < 2 ^ (8 * n.bytes) ∧
        ∀ k, k < n.bytes → (splitBytes s.soc.endian n.bytes u)[k]? = s.byteAt m (l + k)) ∧
      (directWrite m l n v s).result = .ok () ∧
      (∀ k, k < n.bytes →
        (splitBytes s.soc.endian n.bytes v)[k]? = (directWrite m l n v s).after.byteAt m (l + k)) ∧
      (v.toNat < 2 ^ (8 * n.bytes) → directRead m l n (directWrite m l n v s).after = .ok v) ∧
      SameMemoryBut m l n.bytes s (directWrite m l n v s).after ∧
      SameRegs s (directWrite m l n v s).after ∧ SameSetup s (directWrite m l n v s).after) ∧
    (l % 4 ≠ 0 → writeWord m l v s = { result := .fail .devMisaligned, after := s }) ∧
    (l % 4 = 0 → d.size < l + 4 → writeWord m l v s = { result := .fail .devBounds, after := s }) ∧
    (l % 4 = 0 → l + 4 ≤ d.size → (writeWord m l v s).result = .ok () ∧ HoldsWord (writeWord m l v s).after m l v ∧
      SameMemoryBut m l 4 s (writeWord m l v s).after ∧ SameRegs s (writeWord m l v s).after ∧
      SameSetup s (writeWord m l v s).after) ∧
    (∃ bs, rawBytes m s = some bs ∧ ∀ l', s.byteAt m l' = bs[l']?)

/-- R29: `getRegisterFile()` is the registers `x[0..N-1]` in order, and the raw byte view of a memory device is its
bytes `mem[m][0..MEM_SIZE[m]-1]` in order, as they lie in memory whatever the byte order. Both go past the Bus: they do
not depend on the registry. That they change no state is their type, since they answer no state. -/
def Obligations.IntrospectionShowsTheState : Prop :=
  ∀ (s : State),
    (getRegisterFile s).length = s.nRegs ∧ (∀ i, i < s.nRegs → (getRegisterFile s)[i]? = some (s.readReg i)) ∧
    (∀ m d, s.mems[m]? = some d →
      ∃ bs, rawBytes m s = some bs ∧ bs.length = d.size ∧ ∀ l, l < d.size → bs[l]? = some (d.readByte l)) ∧
    (∀ m (e : Endian) (ctxs : List DeviceContext),
      rawBytes m { s with soc := { s.soc with endian := e }, registry := ctxs } = rawBytes m s ∧
      getRegisterFile { s with registry := ctxs } = getRegisterFile s)

/-- Every host operation keeps a legal state legal (R41: no device twice; R54; R190 to R192), attach only of a device
that exists (the model's identity of devices, entry 7). -/
def Obligations.HostOperationsKeepTheInvariant : Prop :=
  ∀ (s : State), s.Inv →
    (∀ role dev range, (∀ m, dev = .memory m → m < s.mems.length) → (attach role dev range s).after.Inv) ∧
    (∀ dev, (detach dev s).after.Inv) ∧
    (∀ op a d, (request op a d s).after.Inv) ∧
    (∀ m l n v, (directWrite m l n v s).after.Inv) ∧
    (resetAll s).after.Inv

/-! ## Reset and boot -/

/-- R190: after CPU reset every register but PC holds the sentinel and PC the reset vector, for every value of the
parameters; memory and registry are untouched. That it always succeeds is the spec's own choice (D17, entry 21). -/
def Obligations.CpuResetSetsEveryRegister : Prop :=
  ∀ (s : State), s.Inv →
    ∃ t, devReset .cpu s = .ok t ∧ t.nRegs = s.nRegs ∧ (∀ i, i < s.pci → t.readReg i = s.soc.regSentinel) ∧
      t.pc = s.soc.resetVector ∧ SameMemory s t ∧ SameSetup s t

/-- R191: the reset of a memory device always succeeds and fills every byte with its fill value; no other device and no
register changes. -/
def Obligations.MemoryResetFillsEveryByte : Prop :=
  ∀ (s : State) (m : Nat) (d : Memory), s.mems[m]? = some d →
    ∃ t, devReset (.memory m) s = .ok t ∧ (∀ l, l < d.size → t.byteAt m l = some d.fill) ∧
      (∀ m' l, m' ≠ m → t.byteAt m' l = s.byteAt m' l) ∧ SameRegs s t ∧ SameSetup s t

/-- R192: system reset resets the attached devices in registry order and stops at the first that fails, leaving the
later ones alone; with the CORE's own devices (a legal state) it always succeeds (of the CPU: D17, entry 21), leaves the
registry, resets the CPU if and only if it is attached, and fills exactly the attached memory devices. -/
def Obligations.SystemResetResetsTheAttached : Prop :=
  (∀ (before : List DeviceContext) (c : DeviceContext) (rest : List DeviceContext) (s t : State) (k : FailKind),
    (resetContexts before s) = { result := .ok (), after := t } → devReset c.device t = .fail k →
    resetContexts (before ++ c :: rest) s = { result := .fail .resetFailed, after := t }) ∧
  (∀ (s : State), s.Inv →
    (resetAll s).result = .ok () ∧ SameSetup s (resetAll s).after ∧
    ((∃ c ∈ s.registry, c.device = .cpu) →
      (∀ i, i < s.pci → (resetAll s).after.readReg i = s.soc.regSentinel) ∧
      (resetAll s).after.pc = s.soc.resetVector) ∧
    ((∀ c ∈ s.registry, c.device ≠ .cpu) → SameRegs s (resetAll s).after) ∧
    (∀ m d, s.mems[m]? = some d → (∃ c ∈ s.registry, c.device = .memory m) →
      ∀ l, l < d.size → (resetAll s).after.byteAt m l = some d.fill) ∧
    (∀ m, (∀ c ∈ s.registry, c.device ≠ .memory m) → ∀ l, (resetAll s).after.byteAt m l = s.byteAt m l))

/-- R193: for every legal choice of the parameters, constructing (with any values before the first reset, D28, entry 3),
attaching everything in order and resetting succeeds, and gives the reset state of those parameters, which is legal.
That the CPU's reset succeeds is D17 (entry 21). -/
def Obligations.BootReachesTheResetState : Prop :=
  ∀ p : Params, p.wf = true →
    boot p = { result := .ok (), after := State.resetOf p } ∧ (State.resetOf p).Inv

/-- The machine right after reset in the reference configuration (the model's choice, entry 2, values of D23) is legal.
-/
def Obligations.ResetStateIsLegal : Prop := State.reset.Inv

/-! ## Invariants and runs -/

/-- Every step from a legal state leads to a legal state, also where the call fails and the host goes on from the state
the failure left: N, the parameters' ranges, the canonical form of every memory device and the registry's distinct,
existing devices are kept by all eight instructions in all their forms. That N is at most 256 is the spec's own choice
(D4, entry 18); that the parameters stand in State and that a device is its place in the list are the model's (entries
1, 7). -/
def Obligations.StepKeepsTheInvariant : Prop :=
  ∀ (s : State), s.Inv → (∀ t, step s = .next t → t.Inv) ∧ (execute s).after.Inv ∧ ∀ k, (callTimes k s).Inv

/-- R165: a run ends at its first failing call. `k` calls succeed exactly when the host's run loop goes through, with
the same end state; and where it stops, it stops with the state the failing call left. That a run ends there, and the
bound `k`, are the spec's own choice (D19, entry 22); that a failing call is a fault carrying its state is the model's
(entry 4). -/
def Obligations.RunEndsAtTheFirstFailure : Prop :=
  ∀ (k : Nat) (s : State),
    (∀ t, hostRun k s = .next t ↔ runCalls k s = { calls := k, result := .success, after := t }) ∧
    (∀ f, hostRun k s = .fault f →
      (runCalls k s).result = (callOf s (.fault f)).result ∧ (runCalls k s).after = (callOf s (.fault f)).after) ∧
    (SafeRun k s ↔ (runCalls k s).result = .success)

/-- R106: each call is independent. After a FETCH failure every further call fails the same way in the same state; after
an EXECUTE failure the next call fetches at the word after the failing one. The wrap of `+ 4` is the spec's own choice
(D12, entry 12); that a host goes on from the state a fault carries is the model's (entry 4). -/
def Obligations.CallsAreIndependent : Prop :=
  ∀ (s : State), s.Inv →
    (∀ k a, (execute s).result = .failure .fetch k a →
      ∀ n, callTimes n s = s ∧ execute (callTimes n s) = { result := .failure .fetch k a, after := s }) ∧
    (∀ k a, (execute s).result = .failure .execute k a →
      (execute s).after.pc = s.pc + 4 ∧ ∀ n, callTimes (n + 1) s = callTimes n (execute s).after)

/-! ## What cannot be observed -/

/-- R40 (D11, the spec's own choice, entry 19): a context's role affects neither routing nor reset nor a cycle: giving
every context one role commutes with a step and with system reset. -/
def Obligations.RolesHaveNoEffect : Prop :=
  ∀ (s : State) (r : Role),
    step (s.withRole r) = mapOut (State.withRole r) (step s) ∧
    (resetAll (s.withRole r)).result = (resetAll s).result ∧
    (resetAll (s.withRole r)).after = (resetAll s).after.withRole r

/-- R82, R88, R56: byte order cannot be observed by a program. Two legal machines that differ at most in SOC_ENDIAN and
hold the same numeric words take steps of the same form: both complete or both fail alike, with equal registers and
memories that again hold the same words. It rests on the spec's own choice that fields are positions in the numeric word
(D2, entry 9; under the alternative it sets aside, byte order is visible) and that every Bus access is 32 bits wide (D9,
entry 17). -/
def Obligations.ByteOrderIsInvisibleToPrograms : Prop :=
  ∀ (s t : State), s.Inv → t.Inv → SameButEndian s t → OutRel SameButEndian (step s) (step t)

/-! ## Pseudo-instructions (R90; names and expansions are the spec's own, D20, entry 25) -/

/-- CLR, LI16 and LI32: the destination, which must not be PC, gets zero, the 16-bit and the 32-bit value; PC passes the
expansion and nothing else changes. Names and expansions are the spec's own (D20, entry 25), and so is the wrap of PC
(D12, entry 12). -/
def Obligations.ImmediatePseudosSetTheRegister : Prop :=
  ∀ (s : State) (d : RegIndex) (imm16 : Imm16) (imm32 : Word), s.Inv → d.toNat < s.nRegs → d.toNat ≠ s.pci →
    (∃ t, runItems ((Pseudo.clr d).expand s.nRegs s.pc) s = .next t ∧ t.readReg d.toNat = 0 ∧ t.pc = s.pc + 4 ∧
      SameRegsBut [d.toNat, s.pci] s t ∧ SameMemory s t) ∧
    (∃ t, runItems ((Pseudo.li16 d imm16).expand s.nRegs s.pc) s = .next t ∧
      (t.readReg d.toNat).toNat = imm16.toNat ∧ t.pc = s.pc + 8 ∧ SameRegsBut [d.toNat, s.pci] s t ∧ SameMemory s t) ∧
    (∃ t, runItems ((Pseudo.li32 d imm32).expand s.nRegs s.pc) s = .next t ∧ t.readReg d.toNat = imm32 ∧
      t.pc = s.pc + 8 ∧ SameRegsBut [d.toNat, s.pci] s t ∧ SameMemory s t)

/-- MOV and JMPR, a PUSH and a POP, for every register but SP (R90), PC among them: the destination, or PC, gets the
value the first word reads, which for PC is the address of the second (R104); SP is as before, and the word below SP
becomes that value. Names and expansions are the spec's own (D20, entry 25), and so are the order inside PUSH and POP
(D14, entry 11) and the wraps (D12, entry 12). -/
def Obligations.PushPopPseudosMoveTheRegister : Prop :=
  ∀ (s : State) (d r : RegIndex) (m l : Nat), s.Inv → d.toNat < s.nRegs → r.toNat < s.nRegs →
    d.toNat ≠ s.spi → r.toNat ≠ s.spi → WordAt s (s.sp - 4) m l →
    (∃ t, runItems ((Pseudo.mov d r).expand s.nRegs s.pc) s = .next t ∧
      t.readReg d.toNat = s.seenReg r.toNat ∧ t.sp = s.sp ∧ (d.toNat ≠ s.pci → t.pc = s.pc + 8) ∧
      HoldsWord t m l (s.seenReg r.toNat) ∧ SameRegsBut [d.toNat, s.pci] s t ∧ SameMemoryBut m l 4 s t) ∧
    (∃ t, runItems ((Pseudo.jmpr r).expand s.nRegs s.pc) s = .next t ∧ t.pc = s.seenReg r.toNat ∧
      t.sp = s.sp ∧ HoldsWord t m l (s.seenReg r.toNat) ∧ SameRegsBut [s.pci] s t ∧ SameMemoryBut m l 4 s t)

/-- JMP32 (R90): PC gets the 32-bit value, which the scratch register and the word below SP hold afterwards; SP is as
before and nothing else changes. The scratch register is neither PC (LI32) nor SP (JMPR). And RET: PC gets the word at
SP, SP is incremented by 4, and nothing else changes. Names and expansions are the spec's own (D20, entry 25), and so
are the order inside PUSH and POP (D14, entry 11) and the wraps (D12, entry 12). -/
def Obligations.Jmp32AndRetJump : Prop :=
  ∀ (s : State) (m l : Nat), s.Inv →
    (∀ (imm32 : Word) (r : RegIndex), r.toNat < s.nRegs → r.toNat ≠ s.pci → r.toNat ≠ s.spi → WordAt s (s.sp - 4) m l →
      ∃ t, runItems ((Pseudo.jmp32 imm32 r).expand s.nRegs s.pc) s = .next t ∧ t.pc = imm32 ∧
        t.readReg r.toNat = imm32 ∧ t.sp = s.sp ∧ HoldsWord t m l imm32 ∧
        SameRegsBut [r.toNat, s.pci] s t ∧ SameMemoryBut m l 4 s t) ∧
    (WordAt s s.sp m l →
      ∃ t v, runItems (Pseudo.ret.expand s.nRegs s.pc) s = .next t ∧ HoldsWord s m l v ∧ t.pc = v ∧ t.sp = s.sp + 4 ∧
        SameRegsBut [s.spi, s.pci] s t ∧ SameMemory s t)

/-- CALL16 then RET: the call pushes `here + 16` and jumps to the near target in the region of `here + 16` (C9); the
return comes back to `here + 16` with SP restored. The scratch register is not PC (R90) and, for the pushed value to be
the return address, not SP. Order inside PUSH and POP and wraps are the spec's own choice (D14, D12; entries 11, 12). -/
def Obligations.CallThenReturn : Prop :=
  ∀ (s : State) (imm16 : Imm16) (r : RegIndex) (m l : Nat), s.Inv → r.toNat < s.nRegs → r.toNat ≠ s.pci →
    r.toNat ≠ s.spi → WordAt s (s.sp - 4) m l →
    ∃ t, runItems ((Pseudo.call16 imm16 r).expand s.nRegs s.pc) s = .next t ∧
      t.pc.toNat = (s.pc + 16).toNat / 65536 * 65536 + imm16.toNat ∧ t.sp = s.sp - 4 ∧
      HoldsWord t m l (s.pc + 16) ∧ SameRegsBut [r.toNat, s.spi, s.pci] s t ∧ SameMemoryBut m l 4 s t ∧
      ∃ u, runItems (Pseudo.ret.expand t.nRegs t.pc) t = .next u ∧ u.pc = s.pc + 16 ∧ u.sp = s.sp ∧
        SameRegsBut [s.spi, s.pci] t u ∧ SameMemory t u

/-- NOP has no effect but advancing PC; JMP16 is a near jump in the region of `here + 4`; HALT ends a run with
DEC_OPCODE where the map leaves 0xFF unassigned, with PC past it. Names and expansions are the spec's own (D20, entry
25), and so are the wrap of PC (D12, entry 12), the opcode's place in HALT's word (D2, entry 9) and the address of its
failure (D15, entry 20). -/
def Obligations.NopJumpAndHalt : Prop :=
  ∀ (s : State) (imm16 : Imm16), s.Inv →
    (∃ t, runItems (Pseudo.nop.expand s.nRegs s.pc) s = .next t ∧ t.pc = s.pc + 4 ∧ SameRegsBut [s.pci] s t ∧
      SameMemory s t) ∧
    (∃ t, runItems ((Pseudo.jmp16 imm16).expand s.nRegs s.pc) s = .next t ∧
      t.pc.toNat = (s.pc + 4).toNat / 65536 * 65536 + imm16.toNat ∧ SameRegsBut [s.pci] s t ∧ SameMemory s t) ∧
    (0xFF ∉ s.soc.opcodeMap.codes →
      ∃ t, runItems (Pseudo.halt.expand s.nRegs s.pc) s = .fault (.execute .decOpcode s.pc t) ∧ t.pc = s.pc + 4 ∧
        SameRegsBut [s.pci] s t ∧ SameMemory s t)
end

