-- ==== Sys2Proof/Laws/ByteOrder.lean ====
section
/-! SUPPORT. Laws of the byte order: lengths, and that assembling what was split gives it back. -/

namespace Sys2Proof

/-- A byte appended below a number. -/
theorem toNat_append_byte {n : Nat} (x : BitVec n) (b : Byte) : (x ++ b).toNat = x.toNat * 256 + b.toNat := by
  rw [BitVec.toNat_append, ← Nat.shiftLeft_add_eq_or_of_lt b.isLt, Nat.shiftLeft_eq]

@[simp] theorem leBytes_length (n v : Nat) : (leBytes n v).length = n := by
  induction n generalizing v with
  | zero => rfl
  | succ n ih => simp [leBytes, ih]

@[simp] theorem splitBytes_length (e : Endian) (n : Nat) (v : Word) : (splitBytes e n v).length = n := by
  cases e <;> simp [splitBytes]

/-- The digits of `v` are the number again, up to `256 ^ n`. -/
theorem leValue_leBytes (n v : Nat) : leValue (leBytes n v) = v % 256 ^ n := by
  induction n generalizing v with
  | zero => simp [leBytes, leValue, Nat.mod_one]
  | succ n ih =>
    simp only [leBytes, leValue, ih, BitVec.toNat_ofNat]
    rw [show 256 ^ (n + 1) = 256 * 256 ^ n by ring, Nat.mod_mul]

/-- `Assemble` after `Split` at `n` bytes keeps the low `n` bytes (R55, R56). -/
theorem assemble_split (e : Endian) (n : Nat) (v : Word) :
    assembleBytes e (splitBytes e n v) = BitVec.ofNat 32 (v.toNat % 256 ^ n) := by
  cases e <;> simp [assembleBytes, splitBytes, leValue_leBytes]

theorem assemble_split_word (e : Endian) (v : Word) : assembleBytes e (splitBytes e 4 v) = v := by
  rw [assemble_split]
  apply BitVec.eq_of_toNat_eq
  have := v.isLt
  simp only [BitVec.toNat_ofNat]
  omega

/-- The digits of a number made of `n` digits are those digits. -/
theorem leBytes_leValue (bs : List Byte) : leBytes bs.length (leValue bs) = bs := by
  induction bs with
  | nil => rfl
  | cons b bs ih =>
    have hb := b.isLt
    have h1 : (b.toNat + 256 * leValue bs) / 256 = leValue bs := by omega
    have h2 : BitVec.ofNat 8 (b.toNat + 256 * leValue bs) = b := by
      apply BitVec.eq_of_toNat_eq
      simp only [BitVec.toNat_ofNat]
      omega
    simp only [List.length_cons, leBytes, leValue, h1, h2, ih]

theorem leValue_lt (bs : List Byte) : leValue bs < 256 ^ bs.length := by
  induction bs with
  | nil => simp [leValue]
  | cons b bs ih =>
    have hb := b.isLt
    simp only [leValue, List.length_cons, Nat.pow_succ]
    omega

/-- `Assemble` of `n` bytes is a number of `n` bytes (R55). -/
theorem assembleBytes_lt (e : Endian) (bs : List Byte) : (assembleBytes e bs).toNat < 256 ^ bs.length := by
  cases e with
  | big =>
    have h := leValue_lt bs.reverse
    rw [List.length_reverse] at h
    exact Nat.lt_of_le_of_lt (by simpa [assembleBytes] using Nat.mod_le _ _) h
  | little => exact Nat.lt_of_le_of_lt (by simpa [assembleBytes] using Nat.mod_le _ _) (leValue_lt bs)

/-- `Split` after `Assemble` of at most four bytes gives the bytes back (R55). -/
theorem split_assemble (e : Endian) (bs : List Byte) (h : bs.length ≤ 4) :
    splitBytes e bs.length (assembleBytes e bs) = bs := by
  have key : ∀ cs : List Byte, cs.length ≤ 4 → (BitVec.ofNat 32 (leValue cs)).toNat = leValue cs := by
    intro cs hc
    have h1 := leValue_lt cs
    have h2 : 256 ^ cs.length ≤ 256 ^ 4 := Nat.pow_le_pow_right (by omega) hc
    simp only [BitVec.toNat_ofNat]
    omega
  cases e with
  | little => simp only [splitBytes, assembleBytes, key bs h, leBytes_leValue]
  | big =>
    have hr := leBytes_leValue bs.reverse
    simp only [List.length_reverse] at hr
    simp only [splitBytes, assembleBytes, key bs.reverse (by simpa using h), hr, List.reverse_reverse]

/-- Four bytes are determined by the word they assemble to. -/
theorem split_assemble_word (e : Endian) (b0 b1 b2 b3 : Byte) :
    splitBytes e 4 (assembleBytes e [b0, b1, b2, b3]) = [b0, b1, b2, b3] :=
  split_assemble e [b0, b1, b2, b3] (by simp)

end Sys2Proof
end

