-- ==== Sys2Proof/Laws/Memory.lean ====
section
/-! SUPPORT. Laws of one memory device: the canonical form is kept, and reads after writes. -/

namespace Sys2Proof.Machine

open Sys2Proof

/-! ## One cell -/

/-- Below every listed address the fill is read. -/
theorem cellAt_below {fill : Byte} {size lo l : Nat} {cs : List Host.Cell} (h : cellsWf fill size lo cs = true)
    (hl : l < lo) : cellAt fill cs l = fill := by
  induction cs generalizing lo with
  | nil => rfl
  | cons c cs ih =>
    obtain ⟨a, b⟩ := c
    simp only [cellsWf, Bool.and_eq_true, decide_eq_true_eq] at h
    have hne : a ≠ l := by omega
    simp only [cellAt, hne, if_false]
    exact ih h.2 (by omega)

/-- A put leaves every other address alone (the canonical form is not needed for this). -/
theorem cellAt_putCell_ne {fill : Byte} {l l' : Nat} (b : Byte) (cs : List Host.Cell) (h : l' ≠ l) :
    cellAt fill (putCell fill l b cs) l' = cellAt fill cs l' := by
  induction cs with
  | nil => by_cases hb : b = fill <;> simp [putCell, hb, cellAt, Ne.symm h]
  | cons c cs ih =>
    obtain ⟨a, x⟩ := c
    simp only [putCell]
    split
    · split <;> simp [cellAt, Ne.symm h]
    · split
      · rename_i _ hla; subst hla
        split <;> simp [cellAt, Ne.symm h]
      · simp only [cellAt, ih]

/-- A put's address reads the byte put there. -/
theorem cellAt_putCell_same {fill : Byte} {size lo l : Nat} (b : Byte) {cs : List Host.Cell}
    (h : cellsWf fill size lo cs = true) : cellAt fill (putCell fill l b cs) l = b := by
  induction cs generalizing lo with
  | nil => by_cases hb : b = fill <;> simp [putCell, hb, cellAt]
  | cons c cs ih =>
    obtain ⟨a, x⟩ := c
    simp only [cellsWf, Bool.and_eq_true, decide_eq_true_eq] at h
    simp only [putCell]
    split
    · rename_i hla
      split
      · rename_i hb; subst hb
        have hne : a ≠ l := by omega
        simp only [cellAt, hne, if_false]
        exact cellAt_below h.2 (by omega)
      · simp [cellAt]
    · split
      · rename_i _ hla; subst hla
        split
        · rename_i hb; subst hb
          exact cellAt_below h.2 (by omega)
        · simp [cellAt]
      · rename_i hlt hne
        have hne' : a ≠ l := fun e => hne e.symm
        simp only [cellAt, hne', if_false]
        exact ih h.2

theorem cellsWf_mono {fill : Byte} {size lo lo' : Nat} {cs : List Host.Cell} (h : cellsWf fill size lo cs = true)
    (hlo : lo' ≤ lo) : cellsWf fill size lo' cs = true := by
  cases cs with
  | nil => rfl
  | cons c cs =>
    simp only [cellsWf, Bool.and_eq_true, decide_eq_true_eq] at h ⊢
    exact ⟨⟨⟨by omega, h.1.1.2⟩, h.1.2⟩, h.2⟩

/-- A put keeps the canonical form. -/
theorem cellsWf_putCell {fill : Byte} {size lo l : Nat} (b : Byte) {cs : List Host.Cell}
    (h : cellsWf fill size lo cs = true) (hlo : lo ≤ l) (hl : l < size) :
    cellsWf fill size lo (putCell fill l b cs) = true := by
  induction cs generalizing lo with
  | nil => by_cases hb : b = fill <;> simp [putCell, cellsWf, hb, hlo, hl]
  | cons c cs ih =>
    obtain ⟨a, x⟩ := c
    have h' := h
    simp only [cellsWf, Bool.and_eq_true, decide_eq_true_eq] at h
    simp only [putCell]
    split
    · rename_i hla
      split
      · exact h'
      · rename_i hb
        simp only [cellsWf, Bool.and_eq_true, decide_eq_true_eq, bne_iff_ne, ne_eq]
        exact ⟨⟨⟨hlo, hl⟩, hb⟩, ⟨⟨by omega, h.1.1.2⟩, by simpa using h.1.2⟩, h.2⟩
    · split
      · rename_i _ hla; subst hla
        split
        · exact cellsWf_mono h.2 (by omega)
        · rename_i hb
          simp only [cellsWf, Bool.and_eq_true, decide_eq_true_eq, bne_iff_ne, ne_eq]
          exact ⟨⟨⟨hlo, hl⟩, hb⟩, h.2⟩
      · simp only [cellsWf, Bool.and_eq_true, decide_eq_true_eq]
        exact ⟨h.1, ih h.2 (by omega)⟩

/-! ## One byte and several -/

@[simp] theorem writeByte_size (d : Memory) (l : Nat) (b : Byte) : (d.writeByte l b).size = d.size := rfl
@[simp] theorem writeByte_base (d : Memory) (l : Nat) (b : Byte) : (d.writeByte l b).base = d.base := rfl
@[simp] theorem writeByte_fill (d : Memory) (l : Nat) (b : Byte) : (d.writeByte l b).fill = d.fill := rfl

@[simp] theorem writeBytes_size (d : Memory) (l : Nat) (bs : List Byte) : (d.writeBytes l bs).size = d.size := by
  induction bs generalizing d l with
  | nil => rfl
  | cons b bs ih => simp [Memory.writeBytes, ih]

@[simp] theorem writeBytes_base (d : Memory) (l : Nat) (bs : List Byte) : (d.writeBytes l bs).base = d.base := by
  induction bs generalizing d l with
  | nil => rfl
  | cons b bs ih => simp [Memory.writeBytes, ih]

@[simp] theorem writeBytes_fill (d : Memory) (l : Nat) (bs : List Byte) : (d.writeBytes l bs).fill = d.fill := by
  induction bs generalizing d l with
  | nil => rfl
  | cons b bs ih => simp [Memory.writeBytes, ih]

theorem Memory.wf_writeByte {d : Memory} (h : d.wf = true) {l : Nat} (hl : l < d.size) (b : Byte) :
    (d.writeByte l b).wf = true := cellsWf_putCell b h (Nat.zero_le l) hl

/-- Writing bytes inside the device keeps the canonical form. -/
theorem Memory.wf_writeBytes {d : Memory} (h : d.wf = true) {l : Nat} {bs : List Byte} (hl : l + bs.length ≤ d.size) :
    (d.writeBytes l bs).wf = true := by
  induction bs generalizing d l with
  | nil => exact h
  | cons b bs ih =>
    simp only [List.length_cons] at hl
    exact ih (Memory.wf_writeByte h (by omega) b) (by simp only [writeByte_size]; omega)

/-- Bytes outside the written ones read as before. -/
theorem readByte_writeBytes_ne (d : Memory) {l l' : Nat} {bs : List Byte} (h : l' < l ∨ l + bs.length ≤ l') :
    (d.writeBytes l bs).readByte l' = d.readByte l' := by
  induction bs generalizing d l with
  | nil => rfl
  | cons b bs ih =>
    simp only [List.length_cons] at h
    rw [Memory.writeBytes, ih (d.writeByte l b) (by omega)]
    exact cellAt_putCell_ne b d.cells (by omega)

/-- Each written byte reads as written. -/
theorem readByte_writeBytes {d : Memory} (h : d.wf = true) {l k : Nat} {bs : List Byte} (hk : k < bs.length)
    (hl : l + bs.length ≤ d.size) : (d.writeBytes l bs).readByte (l + k) = bs[k] := by
  induction bs generalizing d l k with
  | nil => simp at hk
  | cons b bs ih =>
    simp only [List.length_cons] at hk hl
    cases k with
    | zero =>
      rw [Memory.writeBytes, readByte_writeBytes_ne _ (by omega)]
      exact cellAt_putCell_same b h
    | succ k =>
      have := ih (Memory.wf_writeByte h (l := l) (by omega) b) (l := l + 1) (k := k) (by omega)
        (by simp only [writeByte_size]; omega)
      rw [Memory.writeBytes, show l + (k + 1) = l + 1 + k by omega, this]
      simp

/-- Reading back the written bytes gives them all. -/
theorem readBytes_writeBytes {d : Memory} (h : d.wf = true) {l : Nat} {bs : List Byte} (hl : l + bs.length ≤ d.size) :
    (d.writeBytes l bs).readBytes l bs.length = bs := by
  induction bs generalizing d l with
  | nil => rfl
  | cons b bs ih =>
    simp only [List.length_cons] at hl ⊢
    have hb := readByte_writeBytes h (l := l) (k := 0) (bs := b :: bs) (by simp) (by simpa using hl)
    have hrest := ih (Memory.wf_writeByte h (l := l) (by omega) b) (l := l + 1) (by simp only [writeByte_size]; omega)
    simp only [Nat.add_zero, List.getElem_cons_zero] at hb
    rw [Memory.readBytes, hb, Memory.writeBytes, hrest]

/-- Devices that read alike on `n` bytes give the same list. -/
theorem readBytes_congr {d d' : Memory} {l l' n : Nat} (h : ∀ k, k < n → d'.readByte (l' + k) = d.readByte (l + k)) :
    d'.readBytes l' n = d.readBytes l n := by
  induction n generalizing l l' with
  | zero => rfl
  | succ n ih =>
    have h0 := h 0 (by omega)
    simp only [Nat.add_zero] at h0
    rw [Memory.readBytes, Memory.readBytes, h0, ih]
    intro k hk
    have := h (k + 1) (by omega)
    rwa [show l' + (k + 1) = l' + 1 + k by omega, show l + (k + 1) = l + 1 + k by omega] at this

@[simp] theorem readBytes_length (d : Memory) (l n : Nat) : (d.readBytes l n).length = n := by
  induction n generalizing l with
  | zero => rfl
  | succ n ih => simp [Memory.readBytes, ih]

/-- The bytes read, one by one. -/
theorem readBytes_getElem? (d : Memory) (l n k : Nat) :
    (d.readBytes l n)[k]? = if k < n then some (d.readByte (l + k)) else none := by
  induction n generalizing l k with
  | zero => simp [Memory.readBytes]
  | succ n ih =>
    cases k with
    | zero => simp [Memory.readBytes]
    | succ k => simp [Memory.readBytes, ih, show l + 1 + k = l + (k + 1) by omega]

theorem readBytes_four (d : Memory) (l : Nat) :
    d.readBytes l 4 = [d.readByte l, d.readByte (l + 1), d.readByte (l + 2), d.readByte (l + 3)] := rfl

/-! ## The checked accesses -/

/-- An access passes exactly when it is aligned and in bounds (R52, R53). -/
theorem checkAccess_ok {d : Memory} {l : Nat} {n : Width} :
    d.checkAccess l n = .ok () ↔ l % n.bytes = 0 ∧ l + n.bytes ≤ d.size := by
  unfold Memory.checkAccess
  split
  · simp_all
  · split
    · simp_all
    · simp_all

/-- Why an access is refused: misaligned, or else out of bounds (R52, R53). -/
theorem checkAccess_fail {d : Memory} {l : Nat} {n : Width} {k : FailKind} (h : d.checkAccess l n = .fail k) :
    (k = .devMisaligned ∧ l % n.bytes ≠ 0) ∨ (k = .devBounds ∧ l % n.bytes = 0 ∧ d.size < l + n.bytes) := by
  unfold Memory.checkAccess at h
  by_cases h1 : l % n.bytes ≠ 0
  · exact .inl ⟨by simpa [h1] using h.symm, h1⟩
  · by_cases h2 : d.size < l + n.bytes
    · exact .inr ⟨by simpa [h1, h2] using h.symm, by simpa using h1, h2⟩
    · simp [h1, h2] at h

theorem checkAccess_misaligned {d : Memory} {l : Nat} {n : Width} (h : l % n.bytes ≠ 0) :
    d.checkAccess l n = .fail .devMisaligned := by simp [Memory.checkAccess, h]

theorem checkAccess_bounds {d : Memory} {l : Nat} {n : Width} (ha : l % n.bytes = 0) (hb : d.size < l + n.bytes) :
    d.checkAccess l n = .fail .devBounds := by simp [Memory.checkAccess, ha, hb]

/-- Everything a local write does when it succeeds. -/
theorem localWrite_ok {e : Endian} {d d' : Memory} {l : Nat} {n : Width} {v : Word}
    (h : d.localWrite e l n v = .ok d') :
    l % n.bytes = 0 ∧ l + n.bytes ≤ d.size ∧ d' = d.writeBytes l (splitBytes e n.bytes v) := by
  unfold Memory.localWrite at h
  split at h
  · simp at h
  · rename_i hc
    obtain ⟨h1, h2⟩ := checkAccess_ok.mp hc
    exact ⟨h1, h2, by simpa using h.symm⟩

/-- An aligned write in bounds succeeds. -/
theorem localWrite_of_fits {e : Endian} {d : Memory} {l : Nat} {n : Width} (v : Word) (ha : l % n.bytes = 0)
    (hb : l + n.bytes ≤ d.size) : d.localWrite e l n v = .ok (d.writeBytes l (splitBytes e n.bytes v)) := by
  simp [Memory.localWrite, checkAccess_ok.mpr ⟨ha, hb⟩]

theorem localRead_of_fits {e : Endian} {d : Memory} {l : Nat} {n : Width} (ha : l % n.bytes = 0)
    (hb : l + n.bytes ≤ d.size) : d.localRead e l n = .ok (assembleBytes e (d.readBytes l n.bytes)) := by
  simp [Memory.localRead, checkAccess_ok.mpr ⟨ha, hb⟩]

/-- A device of the same size passes and fails the same accesses. -/
theorem checkAccess_congr {d d' : Memory} (h : d'.size = d.size) (l : Nat) (n : Width) :
    d'.checkAccess l n = d.checkAccess l n := by simp [Memory.checkAccess, h]

/-- After a word is written, its address reads it in that byte order, and every other word reads as before. -/
theorem localRead_writeBytes_word {e : Endian} {d : Memory} (hd : d.wf = true) {l l' : Nat} (v : Word) (ha : l % 4 = 0)
    (hb : l + 4 ≤ d.size) :
    (d.writeBytes l (splitBytes e 4 v)).localRead e l' .word = if l' = l then .ok v else d.localRead e l' .word := by
  by_cases hl : l' = l
  · subst hl
    rw [if_pos rfl, localRead_of_fits (n := .word) ha (by simpa [Width.bytes] using hb)]
    have h := readBytes_writeBytes hd (l := l') (bs := splitBytes e 4 v) (by simpa using hb)
    rw [splitBytes_length] at h
    simp only [Width.bytes, h, assemble_split_word]
  · rw [if_neg hl]
    by_cases hc : l' % 4 = 0 ∧ l' + 4 ≤ d.size
    · rw [localRead_of_fits (n := .word) hc.1 (by simpa [Width.bytes] using hc.2), localRead_of_fits (n := .word) hc.1 hc.2]
      congr 2
      exact readBytes_congr fun k hk => readByte_writeBytes_ne d (by simp only [splitBytes_length, Width.bytes] at hk ⊢; omega)
    · unfold Memory.localRead
      rw [checkAccess_congr (writeBytes_size d l _)]
      split
      · rfl
      · exact absurd (checkAccess_ok.mp ‹_›) hc

theorem localWrite_size {e : Endian} {d d' : Memory} {l : Nat} {n : Width} {v : Word}
    (h : d.localWrite e l n v = .ok d') : d'.size = d.size := by
  rw [(localWrite_ok h).2.2]; simp

/-- A write keeps the canonical form. -/
theorem Memory.wf_localWrite {e : Endian} {d d' : Memory} {l : Nat} {n : Width} {v : Word} (hd : d.wf = true)
    (h : d.localWrite e l n v = .ok d') : d'.wf = true := by
  obtain ⟨-, h2, rfl⟩ := localWrite_ok h
  exact Memory.wf_writeBytes hd (by simpa using h2)

theorem Memory.wf_reset (d : Memory) : d.reset.wf = true := rfl

@[simp] theorem reset_readByte (d : Memory) (l : Nat) : d.reset.readByte l = d.fill := rfl

end Sys2Proof.Machine
end

