-- ==== Sys2Proof/Laws/State.lean ====
section
/-! SUPPORT. One lemma per field per update of State, and the register file's read-after-write laws. -/

namespace Sys2Proof.Machine

open Sys2Proof

variable (s : State) (i : Nat) (v : Word) (m : Nat) (d : Memory)

@[simp] theorem writeReg_soc : (s.writeReg i v).soc = s.soc := rfl
@[simp] theorem writeReg_mems : (s.writeReg i v).mems = s.mems := rfl
@[simp] theorem writeReg_registry : (s.writeReg i v).registry = s.registry := rfl
@[simp] theorem writeReg_regs : (s.writeReg i v).regs = s.regs.set i v := rfl

@[simp] theorem setMem_soc : (s.setMem m d).soc = s.soc := rfl
@[simp] theorem setMem_regs : (s.setMem m d).regs = s.regs := rfl
@[simp] theorem setMem_registry : (s.setMem m d).registry = s.registry := rfl
@[simp] theorem setMem_mems : (s.setMem m d).mems = s.mems.set m d := rfl

@[simp] theorem advance_soc : s.advance.soc = s.soc := rfl
@[simp] theorem advance_mems : s.advance.mems = s.mems := rfl
@[simp] theorem advance_registry : s.advance.registry = s.registry := rfl

@[simp] theorem writeReg_nRegs : (s.writeReg i v).nRegs = s.nRegs := by
  simp [State.nRegs, State.writeReg]

@[simp] theorem setMem_nRegs : (s.setMem m d).nRegs = s.nRegs := rfl

@[simp] theorem advance_nRegs : s.advance.nRegs = s.nRegs := writeReg_nRegs ..

@[simp] theorem writeReg_pci : (s.writeReg i v).pci = s.pci := by simp [State.pci]
@[simp] theorem writeReg_spi : (s.writeReg i v).spi = s.spi := by simp [State.spi]
@[simp] theorem setMem_pci : (s.setMem m d).pci = s.pci := rfl
@[simp] theorem setMem_spi : (s.setMem m d).spi = s.spi := rfl
@[simp] theorem advance_pci : s.advance.pci = s.pci := writeReg_pci ..
@[simp] theorem advance_spi : s.advance.spi = s.spi := writeReg_spi ..

@[simp] theorem setMem_readReg (j : Nat) : (s.setMem m d).readReg j = s.readReg j := rfl
@[simp] theorem setMem_pc : (s.setMem m d).pc = s.pc := rfl
@[simp] theorem setMem_sp : (s.setMem m d).sp = s.sp := rfl

/-- Reading a register after a write: the written value there, the old value elsewhere. -/
theorem readReg_writeReg {s : State} {i : Nat} (hi : i < s.nRegs) (v : Word) (j : Nat) :
    (s.writeReg i v).readReg j = if j = i then v else s.readReg j := by
  simp only [State.readReg, State.writeReg, List.getD_eq_getElem?_getD, List.getElem?_set]
  by_cases h : j = i
  · subst h; simp [show j < s.regs.length from hi]
  · simp [h, Ne.symm h]

theorem readReg_writeReg_same {s : State} {i : Nat} (hi : i < s.nRegs) (v : Word) :
    (s.writeReg i v).readReg i = v := by rw [readReg_writeReg hi]; simp

/-- A write leaves every other register alone, whatever the index. -/
theorem readReg_writeReg_ne {s : State} {i j : Nat} (h : j ≠ i) (v : Word) :
    (s.writeReg i v).readReg j = s.readReg j := by
  simp [State.readReg, State.writeReg, List.getD_eq_getElem?_getD, Ne.symm h]

theorem sameRegsBut_writeReg (s : State) (i : Nat) (v : Word) : SameRegsBut [i] s (s.writeReg i v) :=
  ⟨by simp, fun _ _ hj => readReg_writeReg_ne (by simpa using hj) v⟩

theorem SameRegsBut.weaken {js ks : List Nat} {s t : State} (h : SameRegsBut js s t) (hs : ∀ i ∈ js, i ∈ ks) :
    SameRegsBut ks s t := ⟨h.1, fun i hi hn => h.2 i hi fun hj => hn (hs i hj)⟩

/-- The registers two changes in a row leave alone. -/
theorem SameRegsBut.comp {js ks : List Nat} {s t u : State} (h : SameRegsBut js s t) (h' : SameRegsBut ks t u) :
    SameRegsBut (js ++ ks) s u := by
  refine ⟨h'.1.trans h.1, fun i hi hn => ?_⟩
  simp only [List.mem_append, not_or] at hn
  rw [h'.2 i (h.1 ▸ hi) hn.2, h.2 i hi hn.1]

theorem sameRegs_of_regs {s t : State} (h : t.regs = s.regs) : SameRegs s t :=
  ⟨by simp [State.nRegs, h], fun i _ => by simp [State.readReg, h]⟩

theorem sameSetup_refl (s : State) : SameSetup s s := ⟨rfl, rfl, rfl, rfl⟩

theorem SameSetup.trans {s t u : State} (h : SameSetup s t) (h' : SameSetup t u) : SameSetup s u :=
  ⟨h'.1.trans h.1, h'.2.1.trans h.2.1, h'.2.2.1.trans h.2.2.1, h'.2.2.2.trans h.2.2.2⟩

theorem sameSetup_writeReg (s : State) (i : Nat) (v : Word) : SameSetup s (s.writeReg i v) :=
  ⟨rfl, rfl, by simp, rfl⟩

/-- Two states with the same memory devices read the same byte everywhere. -/
theorem byteAt_of_mems {s t : State} (h : t.mems = s.mems) (m l : Nat) : t.byteAt m l = s.byteAt m l := by
  simp only [State.byteAt, h]

theorem sameMemory_of_mems {s t : State} (h : t.mems = s.mems) : SameMemory s t := byteAt_of_mems h

@[simp] theorem writeReg_byteAt (l : Nat) : (s.writeReg i v).byteAt m l = s.byteAt m l := rfl

theorem State.Inv.pci_lt {s : State} (h : s.Inv) : s.pci < s.nRegs := by
  have := h.regs_low; simp only [State.pci]; omega

theorem State.Inv.spi_lt {s : State} (h : s.Inv) : s.spi < s.nRegs := by
  have := h.regs_low; simp only [State.spi]; omega

theorem State.Inv.spi_ne_pci {s : State} (h : s.Inv) : s.spi ≠ s.pci := by
  have := h.regs_low; simp only [State.spi, State.pci]; omega

theorem State.Inv.writeReg {s : State} (h : s.Inv) (i : Nat) (v : Word) : (s.writeReg i v).Inv :=
  { regs_low := by simpa using h.regs_low, regs_high := by simpa using h.regs_high, sentinel := h.sentinel,
    opcodes := h.opcodes, mem_wf := h.mem_wf, mem_size := h.mem_size, registered := h.registered, exist := h.exist }

end Sys2Proof.Machine
end

