-- ==== Sys2Proof/Laws/Bus.lean ====
section
/-! SUPPORT. Laws of the Bus: routing is first match, and everything a routed read or write can do. -/

namespace Sys2Proof.Machine

open Sys2Proof

/-! ## Routing -/

theorem holds_iff {c : DeviceContext} {a : Word} : DeviceContext.holds c a = true ↔ HoldsAddr c a := by
  unfold DeviceContext.holds HoldsAddr
  split
  · rename_i r hr
    simp [hr, AddrRange.contains, BitVec.le_def]
  · rename_i hr
    simp [hr]

/-- What `route` answers (R44). -/
theorem route_eq_some_iff {s : State} {a : Word} {dev : Device} : s.route a = some dev ↔ RoutesTo s a dev := by
  simp only [State.route, Option.map_eq_some_iff, List.find?_eq_some_iff_append, RoutesTo]
  constructor
  · rintro ⟨c, ⟨hc, before, rest, heq, hb⟩, hdev⟩
    refine ⟨before, c, rest, heq, fun b hm hh => ?_, holds_iff.mp hc, hdev⟩
    have := hb b hm
    simp [holds_iff.mpr hh] at this
  · rintro ⟨before, c, rest, heq, hb, hc, hdev⟩
    refine ⟨c, ⟨holds_iff.mpr hc, before, rest, heq, fun b hm => ?_⟩, hdev⟩
    have := hb b hm
    rw [← holds_iff] at this
    simpa using this

theorem route_eq_none_iff {s : State} {a : Word} : s.route a = none ↔ Unrouted s a := by
  simp only [State.route, Option.map_eq_none_iff, List.find?_eq_none, Unrouted, holds_iff]

/-- Routing reads the registry only. -/
theorem route_congr {s t : State} (h : t.registry = s.registry) (a : Word) : t.route a = s.route a := by
  simp only [State.route, h]

theorem localAddr_eq (d : Memory) (a : Word) : d.localAddr a = localOf d a := by
  have := d.base.isLt
  simp only [Memory.localAddr, localOf, BitVec.toNat_sub]
  congr 1; omega

theorem localAddr_lt (d : Memory) (a : Word) : d.localAddr a < 2 ^ 32 := (a - d.base).isLt

/-- Two addresses with the same local address in one device are the same. -/
theorem localAddr_inj {d : Memory} {a b : Word} (h : d.localAddr a = d.localAddr b) : a = b := by
  have := BitVec.eq_of_toNat_eq h
  bv_omega

/-- `WordAt` in the machine's own terms. -/
theorem wordAt_iff {s : State} {a : Word} {m l : Nat} :
    WordAt s a m l ↔ ∃ d, s.route a = some (.memory m) ∧ s.mems[m]? = some d ∧ l = d.localAddr a ∧
      d.localAddr a % 4 = 0 ∧ d.localAddr a + 4 ≤ d.size := by
  simp only [WordAt, route_eq_some_iff, localAddr_eq]
  constructor
  · rintro ⟨h, d, hd, rfl, h1, h2⟩
    exact ⟨d, h, hd, rfl, h1, h2⟩
  · rintro ⟨d, h, hd, rfl, h1, h2⟩
    exact ⟨h, d, hd, rfl, h1, h2⟩

/-- What backs an address depends on the setup alone. -/
theorem WordAt.of_setup {s t : State} (h : SameSetup s t) {a : Word} {m l : Nat} (hw : WordAt s a m l) :
    WordAt t a m l := by
  obtain ⟨hr, d, hd, hl, ha, hb⟩ := hw
  have hd' : (t.mems.map (fun x => (x.size, x.base, x.fill)))[m]? = some (d.size, d.base, d.fill) := by
    rw [h.2.2.2]; simp [hd]
  simp only [List.getElem?_map, Option.map_eq_some_iff, Prod.mk.injEq] at hd'
  obtain ⟨d', hd', hsize, hbase, -⟩ := hd'
  refine ⟨by simpa only [RoutesTo, h.2.1] using hr, d', hd', ?_, ha, by omega⟩
  simpa only [localOf, hbase] using hl

/-! ## Reads -/

/-- A read that succeeds was routed to a memory device, aligned and in bounds, and answers its four bytes. -/
theorem memRead_ok {s : State} {a v : Word} (h : s.memRead a = .ok v) :
    ∃ m d, s.route a = some (.memory m) ∧ s.mems[m]? = some d ∧ d.localAddr a % 4 = 0 ∧ d.localAddr a + 4 ≤ d.size ∧
      v = assembleBytes s.soc.endian (d.readBytes (d.localAddr a) 4) := by
  unfold State.memRead at h
  split at h
  · simp at h
  · rename_i dev hroute
    unfold State.devRead at h
    split at h
    · simp at h
    · rename_i m
      split at h
      · simp at h
      · rename_i d hd
        unfold Memory.localRead at h
        split at h
        · simp at h
        · rename_i hc
          obtain ⟨h1, h2⟩ := checkAccess_ok.mp hc
          exact ⟨m, d, hroute, hd, h1, h2, by simpa [Width.bytes] using h.symm⟩

/-- An aligned word in bounds of the memory device the address is routed to is read. -/
theorem memRead_of_fits {s : State} {a : Word} {m : Nat} {d : Memory} (hr : s.route a = some (.memory m))
    (hd : s.mems[m]? = some d) (ha : d.localAddr a % 4 = 0) (hb : d.localAddr a + 4 ≤ d.size) :
    s.memRead a = .ok (assembleBytes s.soc.endian (d.readBytes (d.localAddr a) 4)) := by
  simp only [State.memRead, hr, State.devRead, hd]
  exact localRead_of_fits (n := .word) ha hb

/-- A read depends on the registry, the memory devices and the byte order alone. -/
theorem memRead_congr {s t : State} (hr : t.registry = s.registry) (hm : t.mems = s.mems)
    (he : t.soc.endian = s.soc.endian) (a : Word) : t.memRead a = s.memRead a := by
  simp only [State.memRead, route_congr hr, State.devRead, hm, he]

/-- Why a read fails: unrouted, routed to the CPU, to a memory device that is not there, or refused by the device. -/
theorem memRead_fail {s : State} {a : Word} {k : FailKind} (h : s.memRead a = .fail k) :
    (k = .routing ∧ s.route a = none) ∨ (k = .devNotAccessible ∧ s.route a = some .cpu) ∨
      (∃ m, k = .devNotAccessible ∧ s.route a = some (.memory m) ∧ s.mems[m]? = none) ∨
      (∃ m d, s.route a = some (.memory m) ∧ s.mems[m]? = some d ∧ d.checkAccess (d.localAddr a) .word = .fail k) := by
  unfold State.memRead at h
  split at h
  · rename_i hr
    exact .inl ⟨by simpa using h.symm, hr⟩
  · rename_i dev hr
    cases dev with
    | cpu => exact .inr (.inl ⟨by simpa [State.devRead] using h.symm, hr⟩)
    | memory m =>
      cases hd : s.mems[m]? with
      | none => exact .inr (.inr (.inl ⟨m, by simpa [State.devRead, hd] using h.symm, hr, hd⟩))
      | some d =>
        refine .inr (.inr (.inr ⟨m, d, hr, hd, ?_⟩))
        simp only [State.devRead, hd, Memory.localRead] at h
        split at h
        · rename_i hc; rw [hc]; simpa using h
        · simp at h

/-! ## Writes -/

/-- Everything a successful write does: one memory device, routed to, gets four bytes. -/
theorem memWrite_ok {s t : State} {a v : Word} (h : s.memWrite a v = .ok t) :
    ∃ m d, s.route a = some (.memory m) ∧ s.mems[m]? = some d ∧ d.localAddr a % 4 = 0 ∧ d.localAddr a + 4 ≤ d.size ∧
      t = s.setMem m (d.writeBytes (d.localAddr a) (splitBytes s.soc.endian 4 v)) := by
  unfold State.memWrite at h
  split at h
  · simp at h
  · rename_i dev hroute
    unfold State.devWrite at h
    split at h
    · simp at h
    · rename_i m
      split at h
      · simp at h
      · rename_i d hd
        split at h
        · simp at h
        · rename_i d' hw
          obtain ⟨h1, h2, rfl⟩ := localWrite_ok hw
          exact ⟨m, d, hroute, hd, h1, h2, by simpa [Width.bytes] using h.symm⟩

theorem memWrite_of_fits {s : State} {a : Word} {m : Nat} {d : Memory} (v : Word) (hr : s.route a = some (.memory m))
    (hd : s.mems[m]? = some d) (ha : d.localAddr a % 4 = 0) (hb : d.localAddr a + 4 ≤ d.size) :
    s.memWrite a v = .ok (s.setMem m (d.writeBytes (d.localAddr a) (splitBytes s.soc.endian 4 v))) := by
  simp only [State.memWrite, hr, State.devWrite, hd]
  rw [localWrite_of_fits (n := .word) v ha hb]
  rfl

/-- A read and a write at one address fail alike, whatever the value. -/
theorem memRead_fail_iff_memWrite_fail {s : State} {a v : Word} {k : FailKind} :
    s.memRead a = .fail k ↔ s.memWrite a v = .fail k := by
  unfold State.memRead State.memWrite
  split
  · simp
  · rename_i dev _
    cases dev with
    | cpu => simp [State.devRead, State.devWrite]
    | memory m =>
      simp only [State.devRead, State.devWrite]
      split
      · simp
      · simp only [Memory.localRead, Memory.localWrite]
        rename_i d _
        cases d.checkAccess (d.localAddr a) .word <;> simp

/-- Which failure a read answers, in a legal state: the one R44, R49, R52 and R53 name. -/
theorem memRead_of_fails {s : State} {a : Word} {k : FailKind} (h : AccessFails s a k) : s.memRead a = .fail k := by
  cases h with
  | routing h => simp [State.memRead, route_eq_none_iff.mpr h]
  | notAccessible h => simp [State.memRead, route_eq_some_iff.mpr h, State.devRead]
  | misaligned m d h hd hl =>
    rw [← localAddr_eq] at hl
    simp [State.memRead, route_eq_some_iff.mpr h, State.devRead, hd, Memory.localRead, Memory.checkAccess, Width.bytes, hl]
  | bounds m d h hd hl hb =>
    rw [← localAddr_eq] at hl hb
    simp [State.memRead, route_eq_some_iff.mpr h, State.devRead, hd, Memory.localRead, Memory.checkAccess, Width.bytes, hl, hb]

theorem memWrite_of_fails {s : State} {a : Word} {k : FailKind} (v : Word) (h : AccessFails s a k) :
    s.memWrite a v = .fail k := memRead_fail_iff_memWrite_fail.mp (memRead_of_fails h)

/-- The same word written to two devices that hold the same words, each in its own byte order, keeps that so (R82). -/
theorem SameWords.writeBytes {e e' : Endian} {d d' : Memory} (h : SameWords e e' d d') (hd : d.wf = true)
    (hd' : d'.wf = true) {l : Nat} (v : Word) (ha : l % 4 = 0) (hb : l + 4 ≤ d.size) :
    SameWords e e' (d.writeBytes l (splitBytes e 4 v)) (d'.writeBytes l (splitBytes e' 4 v)) := by
  obtain ⟨h1, h2, h3, h4⟩ := h
  refine ⟨by simp [h1], by simp [h2], by simp [h3], fun l' => ?_⟩
  rw [localRead_writeBytes_word hd v ha hb, localRead_writeBytes_word hd' v ha (h1 ▸ hb), h4]

/-! ## The bytes after a write -/

theorem mems_lt {s : State} {m : Nat} {d : Memory} (hd : s.mems[m]? = some d) : m < s.mems.length :=
  (List.getElem?_eq_some_iff.mp hd).1

theorem setMem_byteAt_same {s : State} {m : Nat} {d d' : Memory} (hd : s.mems[m]? = some d) (hs : d'.size = d.size)
    (l : Nat) : (s.setMem m d').byteAt m l = if l < d.size then some (d'.readByte l) else none := by
  simp [State.byteAt, mems_lt hd, hs]

theorem setMem_byteAt_ne {s : State} {m m' : Nat} (d' : Memory) (h : m' ≠ m) (l : Nat) :
    (s.setMem m d').byteAt m' l = s.byteAt m' l := by
  simp [State.byteAt, Ne.symm h]

/-- Replacing a device by one of the same construction keeps the setup. -/
theorem sameSetup_setMem {s : State} {m : Nat} {d d' : Memory} (hd : s.mems[m]? = some d) (hs : d'.size = d.size)
    (hb : d'.base = d.base) (hf : d'.fill = d.fill) : SameSetup s (s.setMem m d') := by
  refine ⟨rfl, rfl, rfl, List.ext_getElem? fun i => ?_⟩
  simp only [setMem_mems, List.getElem?_map, List.getElem?_set]
  by_cases h : m = i
  · subst h
    simp only [if_true, mems_lt hd, hd, Option.map_some, hs, hb, hf]
  · simp [h]

/-- A legal state stays legal when a device is replaced by a canonical one of the same construction. -/
theorem State.Inv.setMem {s : State} (h : s.Inv) {m : Nat} {d d' : Memory} (hd : s.mems[m]? = some d)
    (hs : d'.size = d.size) (hw : d'.wf = true) : (s.setMem m d').Inv := by
  have hmem : d ∈ s.mems := List.mem_of_getElem? hd
  refine { regs_low := h.regs_low, regs_high := h.regs_high, sentinel := h.sentinel, opcodes := h.opcodes,
           mem_wf := ?_, mem_size := ?_, registered := h.registered, exist := ?_ }
  · intro x hx
    rcases List.mem_or_eq_of_mem_set hx with hx | rfl
    · exact h.mem_wf x hx
    · exact hw
  · intro x hx
    rcases List.mem_or_eq_of_mem_set hx with hx | rfl
    · exact h.mem_size x hx
    · rw [hs]; exact h.mem_size d hmem
  · intro c hc k hk
    simpa using h.exist c hc k hk

/-- A successful write keeps the state legal and the setup the same. -/
theorem memWrite_keeps {s t : State} {a v : Word} (hs : s.Inv) (h : s.memWrite a v = .ok t) : t.Inv := by
  obtain ⟨m, d, -, hd, -, hb, rfl⟩ := memWrite_ok h
  exact hs.setMem hd (by simp) (Memory.wf_writeBytes (hs.mem_wf d (List.mem_of_getElem? hd)) (by simpa using hb))

theorem memWrite_setup {s t : State} {a v : Word} (h : s.memWrite a v = .ok t) : SameSetup s t := by
  obtain ⟨m, d, -, hd, -, hb, rfl⟩ := memWrite_ok h
  exact sameSetup_setMem hd (by simp) (by simp) (by simp)

theorem memWrite_regs {s t : State} {a v : Word} (h : s.memWrite a v = .ok t) : t.regs = s.regs := by
  obtain ⟨m, d, -, -, -, -, rfl⟩ := memWrite_ok h
  rfl

/-! ## Words and their images -/

/-- The bytes of `Split` are the word's image (R55), one byte order each. -/
theorem splitBytes_word (e : Endian) (v : Word) :
    splitBytes e 4 v = [imageByte e v 0, imageByte e v 1, imageByte e v 2, imageByte e v 3] := by
  have hv := v.isLt
  have key : ∀ j, BitVec.ofNat 8 (v.toNat / 2 ^ (8 * j)) = v.extractLsb' (8 * j) 8 := by
    intro j
    apply BitVec.eq_of_toNat_eq
    simp [BitVec.extractLsb'_toNat, Nat.shiftRight_eq_div_pow]
  have h0 := key 0
  have h1 := key 1
  have h2 := key 2
  have h3 := key 3
  simp only [Nat.mul_zero, Nat.pow_zero, Nat.div_one, Nat.mul_one] at h0 h1
  cases e with
  | little =>
    simp only [splitBytes, leBytes, imageByte, Nat.div_div_eq_div_mul, h0, Nat.mul_zero, ← h1, ← h2, ← h3]
    rfl
  | big =>
    simp only [splitBytes, leBytes, imageByte, Nat.div_div_eq_div_mul, h0, Nat.mul_zero, ← h1, ← h2, ← h3]
    rfl

theorem splitBytes_getElem (e : Endian) (v : Word) {k : Nat} (hk : k < 4) :
    (splitBytes e 4 v)[k]'(by simpa using hk) = imageByte e v k := by
  have h := splitBytes_word e v
  rcases k with _ | _ | _ | _ | k
  · simp [h]
  · simp [h]
  · simp [h]
  · simp [h]
  · omega

/-- Two words with the same image are equal. -/
theorem word_of_image {e : Endian} {v w : Word} (h : ∀ k, k < 4 → imageByte e v k = imageByte e w k) : v = w := by
  rw [← assemble_split_word e v, ← assemble_split_word e w, splitBytes_word, splitBytes_word,
    h 0 (by omega), h 1 (by omega), h 2 (by omega), h 3 (by omega)]

/-- The word read at a place is the one whose image lies there. -/
theorem holdsWord_of_readBytes {s : State} {m l : Nat} {d : Memory} (hd : s.mems[m]? = some d) (hb : l + 4 ≤ d.size) :
    HoldsWord s m l (assembleBytes s.soc.endian (d.readBytes l 4)) := by
  intro k hk
  have h := splitBytes_getElem s.soc.endian (assembleBytes s.soc.endian (d.readBytes l 4)) hk
  have hs : splitBytes s.soc.endian 4 (assembleBytes s.soc.endian (d.readBytes l 4)) = d.readBytes l 4 :=
    split_assemble_word ..
  have hlt : l + k < d.size := by omega
  simp only [hs] at h
  simp only [State.byteAt, hd, hlt, if_true, ← h]
  rcases k with _ | _ | _ | _ | k
  · rfl
  · rfl
  · rfl
  · rfl
  · omega

/-- A place holds one word only. -/
theorem HoldsWord.unique {s : State} {m l : Nat} {v w : Word} (hv : HoldsWord s m l v) (hw : HoldsWord s m l w) : v = w :=
  word_of_image (e := s.soc.endian) fun k hk => by
    have := (hv k hk).symm.trans (hw k hk)
    simpa using this

/-- After a write the place holds the word written. -/
theorem holdsWord_setMem {s : State} {m l : Nat} {d : Memory} (hd : s.mems[m]? = some d) (hw : d.wf = true)
    (hb : l + 4 ≤ d.size) (v : Word) :
    HoldsWord (s.setMem m (d.writeBytes l (splitBytes s.soc.endian 4 v))) m l v := by
  intro k hk
  have hlt : l + k < d.size := by omega
  rw [setMem_byteAt_same hd (by simp)]
  simp only [hlt, if_true, setMem_soc]
  rw [readByte_writeBytes hw (by simpa using hk) (by simpa using hb), splitBytes_getElem _ _ hk]

/-- After a write every byte outside the word is as before. -/
theorem sameMemoryBut_setMem {s : State} {m l : Nat} {d : Memory} (hd : s.mems[m]? = some d) (v : Word) :
    SameMemoryBut m l 4 s (s.setMem m (d.writeBytes l (splitBytes s.soc.endian 4 v))) := by
  intro m' l' h
  by_cases hm : m' = m
  · subst hm
    rw [setMem_byteAt_same hd (by simp), readByte_writeBytes_ne d (by simp; omega)]
    simp [State.byteAt, hd]
  · exact setMem_byteAt_ne _ hm l'

end Sys2Proof.Machine
end

