-- ==== Sys2Proof/Laws/Decode.lean ====
section
/-! SUPPORT. The fields of a word put together from its parts (R81). -/

namespace Sys2Proof

section Format1

variable (op : Byte) (r : RegIndex) (imm : Imm16)

theorem opcodeField_format1 : opcodeField (op ++ r ++ imm) = op := by
  apply BitVec.eq_of_getLsbD_eq
  intro i hi
  simp only [opcodeField, BitVec.getLsbD_extractLsb', BitVec.getLsbD_append, hi, decide_true, Bool.true_and,
    show ¬ 24 + i < 16 by omega, show ¬ 24 + i - 16 < 8 by omega, if_false, show 24 + i - 16 - 8 = i by omega]

theorem r1Field_format1 : r1Field (op ++ r ++ imm) = r := by
  apply BitVec.eq_of_getLsbD_eq
  intro i hi
  simp only [r1Field, BitVec.getLsbD_extractLsb', BitVec.getLsbD_append, hi, decide_true, Bool.true_and,
    show ¬ 16 + i < 16 by omega, if_false, if_true, show 16 + i - 16 = i by omega]

theorem imm16Field_format1 : imm16Field (op ++ r ++ imm) = imm := by
  apply BitVec.eq_of_getLsbD_eq
  intro i hi
  simp only [imm16Field, BitVec.getLsbD_extractLsb', BitVec.getLsbD_append, hi, decide_true, Bool.true_and,
    Nat.zero_add, if_true]

end Format1

section Format23

variable (op : Byte) (r1 r2 r3 : RegIndex)

theorem opcodeField_format23 : opcodeField (op ++ r1 ++ r2 ++ r3) = op := by
  apply BitVec.eq_of_getLsbD_eq
  intro i hi
  simp only [opcodeField, BitVec.getLsbD_extractLsb', BitVec.getLsbD_append, hi, decide_true, Bool.true_and,
    show ¬ 24 + i < 8 by omega, show ¬ 24 + i - 8 < 8 by omega, show ¬ 24 + i - 8 - 8 < 8 by omega, if_false,
    show 24 + i - 8 - 8 - 8 = i by omega]

theorem r1Field_format23 : r1Field (op ++ r1 ++ r2 ++ r3) = r1 := by
  apply BitVec.eq_of_getLsbD_eq
  intro i hi
  simp only [r1Field, BitVec.getLsbD_extractLsb', BitVec.getLsbD_append, hi, decide_true, Bool.true_and,
    show ¬ 16 + i < 8 by omega, show ¬ 16 + i - 8 < 8 by omega, if_false, if_true,
    show 16 + i - 8 - 8 = i by omega]

theorem r2Field_format23 : r2Field (op ++ r1 ++ r2 ++ r3) = r2 := by
  apply BitVec.eq_of_getLsbD_eq
  intro i hi
  simp only [r2Field, BitVec.getLsbD_extractLsb', BitVec.getLsbD_append, hi, decide_true, Bool.true_and,
    show ¬ 8 + i < 8 by omega, if_false, if_true, show 8 + i - 8 = i by omega]

theorem r3Field_format23 : r3Field (op ++ r1 ++ r2 ++ r3) = r3 := by
  apply BitVec.eq_of_getLsbD_eq
  intro i hi
  simp only [r3Field, BitVec.getLsbD_extractLsb', BitVec.getLsbD_append, hi, decide_true, Bool.true_and,
    Nat.zero_add, if_true]

theorem offsetField_format23 : offsetField (op ++ r1 ++ r2 ++ r3) = r3 := r3Field_format23 op r1 r2 r3

end Format23

/-- A word is its opcode and Format 1 fields again (R81). -/
theorem format1_eta (w : Word) : opcodeField w ++ r1Field w ++ imm16Field w = w := by
  apply BitVec.eq_of_getLsbD_eq
  intro i hi
  simp only [opcodeField, r1Field, imm16Field, BitVec.getLsbD_append, BitVec.getLsbD_extractLsb']
  by_cases h1 : i < 16
  · simp [h1]
  · by_cases h2 : i - 16 < 8
    · simp [h1, h2, show 16 + (i - 16) = i by omega]
    · simp [h1, h2, show 24 + (i - 16 - 8) = i by omega, show i - 16 - 8 < 8 by omega]

/-- A word is its opcode and Format 2 fields again (R81). -/
theorem format23_eta (w : Word) : opcodeField w ++ r1Field w ++ r2Field w ++ r3Field w = w := by
  apply BitVec.eq_of_getLsbD_eq
  intro i hi
  simp only [opcodeField, r1Field, r2Field, r3Field, BitVec.getLsbD_append, BitVec.getLsbD_extractLsb']
  by_cases h1 : i < 8
  · simp [h1]
  · by_cases h2 : i - 8 < 8
    · simp [h1, h2, show 8 + (i - 8) = i by omega]
    · by_cases h3 : i - 8 - 8 < 8
      · simp [h1, h2, h3, show 16 + (i - 8 - 8) = i by omega]
      · simp [h1, h2, h3, show 24 + (i - 8 - 8 - 8) = i by omega, show i - 8 - 8 - 8 < 8 by omega]

/-- Everything the decoder can answer (R85): the opcode byte is the map's for the mnemonic, and the fields are the
word's. -/
theorem decode_ok_cases {m : OpcodeMap} {w : Word} {i : Instr} (h : decode m w = .ok i) :
    (opcodeField w = m.loadli ∧ i = .loadli (r1Field w) (imm16Field w)) ∨
    (opcodeField w = m.loadhi ∧ i = .loadhi (r1Field w) (imm16Field w)) ∨
    (opcodeField w = m.add ∧ i = .add (r1Field w) (r2Field w) (r3Field w)) ∨
    (opcodeField w = m.sub ∧ i = .sub (r1Field w) (r2Field w) (r3Field w)) ∨
    (opcodeField w = m.store ∧ i = .store (r1Field w) (r2Field w) (offsetField w)) ∨
    (opcodeField w = m.load ∧ i = .load (r1Field w) (r2Field w) (offsetField w)) ∨
    (opcodeField w = m.push ∧ i = .push (r1Field w)) ∨
    (opcodeField w = m.pop ∧ i = .pop (r1Field w)) := by
  simp only [decode] at h
  split at h
  · exact .inl ⟨‹_›, by simpa using h.symm⟩
  split at h
  · exact .inr (.inl ⟨‹_›, by simpa using h.symm⟩)
  split at h
  · exact .inr (.inr (.inl ⟨‹_›, by simpa using h.symm⟩))
  split at h
  · exact .inr (.inr (.inr (.inl ⟨‹_›, by simpa using h.symm⟩)))
  split at h
  · exact .inr (.inr (.inr (.inr (.inl ⟨‹_›, by simpa using h.symm⟩))))
  split at h
  · exact .inr (.inr (.inr (.inr (.inr (.inl ⟨‹_›, by simpa using h.symm⟩)))))
  split at h
  · exact .inr (.inr (.inr (.inr (.inr (.inr (.inl ⟨‹_›, by simpa using h.symm⟩))))))
  split at h
  · exact .inr (.inr (.inr (.inr (.inr (.inr (.inr ⟨‹_›, by simpa using h.symm⟩))))))
  · simp at h

/-- An opcode byte outside the map gives DEC_OPCODE (R85). -/
theorem decode_of_unmapped {m : OpcodeMap} {w : Word} (h : opcodeField w ∉ m.codes) :
    decode m w = .error (.decOpcode (opcodeField w)) := by
  simp only [OpcodeMap.codes, List.mem_cons, not_or] at h
  simp [decode, h]

/-- The opcode byte of a word that decodes is the instruction's. -/
theorem opcode_of_decode {m : OpcodeMap} {w : Word} {i : Instr} (h : decode m w = .ok i) :
    i.opcode m = opcodeField w := by
  rcases decode_ok_cases h with ⟨e, rfl⟩ | ⟨e, rfl⟩ | ⟨e, rfl⟩ | ⟨e, rfl⟩ | ⟨e, rfl⟩ | ⟨e, rfl⟩ | ⟨e, rfl⟩ | ⟨e, rfl⟩ <;>
    exact e.symm

/-- An injective map gives the eight mnemonics eight bytes (R84). -/
theorem OpcodeMap.wf_iff {m : OpcodeMap} : m.wf = true ↔ m.codes.Nodup := by simp [OpcodeMap.wf]

/-- Every instruction's opcode is one of the map's (R84). -/
theorem Instr.opcode_mem (m : OpcodeMap) (i : Instr) : i.opcode m ∈ m.codes := by
  cases i <;> simp [Instr.opcode, OpcodeMap.codes]

end Sys2Proof
end

