-- ==== Sys2Proof/Laws/HostPort.lean ====
section
/-! SUPPORT. The direct memory port in terms of the device's own accesses (20_memory.md R58). -/

namespace Sys2Proof.Machine

open Sys2Proof

variable {s : State} {m l : Nat} {n : Width} {d : Memory}

/-- The port reads the device, whatever the Bus holds. -/
theorem directRead_eq (hd : s.mems[m]? = some d) : directRead m l n s = d.localRead s.soc.endian l n := by
  simp only [directRead, hd]

/-- A refused access: the port fails with its kind and leaves the state. -/
theorem directWrite_of_fail {k : FailKind} (v : Word) (hd : s.mems[m]? = some d) (h : d.checkAccess l n = .fail k) :
    directWrite m l n v s = { result := .fail k, after := s } := by
  simp only [directWrite, hd, Memory.localWrite, h]

theorem directRead_of_fail {k : FailKind} (hd : s.mems[m]? = some d) (h : d.checkAccess l n = .fail k) :
    directRead m l n s = .fail k := by
  simp only [directRead_eq hd, Memory.localRead, h]

/-- An aligned write in bounds: the device's bytes are written and nothing else is touched. -/
theorem directWrite_of_fits (v : Word) (hd : s.mems[m]? = some d) (ha : l % n.bytes = 0) (hb : l + n.bytes ≤ d.size) :
    directWrite m l n v s =
      { result := .ok (), after := s.setMem m (d.writeBytes l (splitBytes s.soc.endian n.bytes v)) } := by
  simp only [directWrite, hd, localWrite_of_fits v ha hb]

end Sys2Proof.Machine
end

