-- ==== Sys2Proof/Laws/Operands.lean ====
section
/-! SUPPORT. Laws of the operand forms: the merges as concatenations, the extension as the signed one, the ALU in plain
arithmetic. -/

namespace Sys2Proof.Machine

open Sys2Proof

/-- LOADLI's merge keeps the high half and takes the low half from the immediate (R120). -/
theorem mergeLow_eq (old : Word) (imm16 : Imm16) : mergeLow old imm16 = old.extractLsb' 16 16 ++ imm16 := by
  apply BitVec.eq_of_getLsbD_eq
  intro i hi
  simp only [mergeLow, zext32, BitVec.getLsbD_or, BitVec.getLsbD_and, BitVec.getLsbD_setWidth, BitVec.getLsbD_append,
    BitVec.getLsbD_extractLsb']
  have hmask : (0xFFFF0000#32).getLsbD i = decide (16 ≤ i) := by
    have : ∀ j, j < 32 → (0xFFFF0000#32).getLsbD j = decide (16 ≤ j) := by decide
    exact this i hi
  rw [hmask]
  by_cases h : i < 16
  · simp [h, hi, show ¬ 16 ≤ i by omega]
  · simp [h, show 16 ≤ i by omega, show 16 + (i - 16) = i by omega, show i - 16 < 16 by omega]

/-- LOADHI's merge keeps the low half and takes the high half from the immediate (R121). -/
theorem mergeHigh_eq (old : Word) (imm16 : Imm16) : mergeHigh old imm16 = imm16 ++ old.extractLsb' 0 16 := by
  apply BitVec.eq_of_getLsbD_eq
  intro i hi
  simp only [mergeHigh, zext32, BitVec.getLsbD_or, BitVec.getLsbD_and, BitVec.getLsbD_setWidth, BitVec.getLsbD_append,
    BitVec.getLsbD_extractLsb', BitVec.getLsbD_shiftLeft]
  have hmask : (0x0000FFFF#32).getLsbD i = decide (i < 16) := by
    have : ∀ j, j < 32 → (0x0000FFFF#32).getLsbD j = decide (j < 16) := by decide
    exact this i hi
  rw [hmask]
  by_cases h : i < 16
  · simp [h]
  · simp [h, hi, show i - 16 < 32 by omega]

/-- R8's extension is the signed one. -/
theorem sext32_eq (v : Byte) : sext32 v = v.signExtend 32 := by
  have : ∀ b : Byte, sext32 b = b.signExtend 32 := by decide +kernel
  exact this v

/-- The offset's value as an integer, `-128 .. 127` (R83). -/
theorem sext32_toInt (v : Byte) : (sext32 v).toInt = v.toInt := by
  rw [sext32_eq, BitVec.toInt_signExtend_of_le (by omega)]

end Sys2Proof.Machine
end

