-- ==== Sys2Proof/Laws/Ops.lean ====
section
/-! SUPPORT. What the shared operations can do, said once each, and one inversion lemma per instruction. -/

namespace Sys2Proof.Machine

open Sys2Proof

/-! ## Shared operations -/

theorem all_valid_iff {n : Nat} {rs : List RegIndex} :
    rs.all (RegIndex.validFor n) = true ↔ ∀ r ∈ rs, r.toNat < n := by
  simp [RegIndex.validFor]

/-- Valid indices: the effect is all that happens (R103). -/
theorem validated_of_valid {rs : List RegIndex} {s : State} (h : ∀ r ∈ rs, r.toNat < s.nRegs) (effect : Out) :
    validated rs s effect = effect := by
  simp only [validated, all_valid_iff.mpr h, if_true]

/-- An invalid index: the failure, before any effect (R103). -/
theorem validated_of_invalid {rs : List RegIndex} {s : State} {r : RegIndex} (hr : r ∈ rs) (h : s.nRegs ≤ r.toNat)
    (effect : Out) : validated rs s effect = failExecute .decRegister s.instrAddr s := by
  have : rs.all (RegIndex.validFor s.nRegs) = false := by
    rw [Bool.eq_false_iff, Ne, all_valid_iff]
    exact fun hall => absurd (hall r hr) (by omega)
  simp [validated, this]

/-- A validated effect's outcome: the effect's with valid indices, or the failure. -/
theorem validated_cases {rs : List RegIndex} {s : State} {effect o : Out} (h : validated rs s effect = o) :
    ((∀ r ∈ rs, r.toNat < s.nRegs) ∧ o = effect) ∨
      ((∃ r ∈ rs, s.nRegs ≤ r.toNat) ∧ o = .fault (.execute .decRegister s.instrAddr s)) := by
  by_cases hv : ∀ r ∈ rs, r.toNat < s.nRegs
  · exact .inl ⟨hv, h ▸ validated_of_valid hv effect⟩
  · push Not at hv
    obtain ⟨r, hr, hn⟩ := hv
    exact .inr ⟨⟨r, hr, hn⟩, h ▸ validated_of_invalid hr hn effect⟩

/-- What a store can do: the write, or its failure with the state as it stands. -/
theorem storeWord_cases {ea v : Word} {s : State} {o : Out} (h : storeWord ea v s = o) :
    (∃ t, s.memWrite ea v = .ok t ∧ o = .next t) ∨
      (∃ k, s.memWrite ea v = .fail k ∧ o = .fault (.execute k ea s)) := by
  unfold storeWord at h
  split at h
  · exact .inr ⟨_, ‹_›, h.symm⟩
  · exact .inl ⟨_, ‹_›, h.symm⟩

/-- What a load can do: the read into the register and what follows it, or the failure with the state as it stands. -/
theorem loadWord_cases {ea : Word} {r : RegIndex} {s : State} {f : State → State} {o : Out}
    (h : loadWord ea r s f = o) :
    (∃ v, s.memRead ea = .ok v ∧ o = .next (f (s.writeReg r.toNat v))) ∨
      (∃ k, s.memRead ea = .fail k ∧ o = .fault (.execute k ea s)) := by
  unfold loadWord at h
  split at h
  · exact .inr ⟨_, ‹_›, h.symm⟩
  · exact .inl ⟨_, ‹_›, h.symm⟩

/-- A failing access is one of the four Bus kinds (R162). -/
theorem memRead_fail_kind {s : State} {a : Word} {k : FailKind} (h : s.memRead a = .fail k) :
    k ∈ [FailKind.routing, .devMisaligned, .devBounds, .devNotAccessible] := by
  rcases memRead_fail h with ⟨rfl, -⟩ | ⟨rfl, -⟩ | ⟨m, rfl, -⟩ | ⟨m, d, -, -, hc⟩
  · simp
  · simp
  · simp
  · rcases checkAccess_fail hc with ⟨rfl, -⟩ | ⟨rfl, -⟩ <;> simp

theorem memWrite_fail_kind {s : State} {a v : Word} {k : FailKind} (h : s.memWrite a v = .fail k) :
    k ∈ [FailKind.routing, .devMisaligned, .devBounds, .devNotAccessible] :=
  memRead_fail_kind (memRead_fail_iff_memWrite_fail.mpr h)

/-! ## Each instruction, when it completes -/

theorem exec_loadli_next {r : RegIndex} {imm16 : Imm16} {s t : State} (h : exec (.loadli r imm16) s = .next t) :
    r.toNat < s.nRegs ∧ t = s.writeReg r.toNat (mergeLow (s.readReg r.toNat) imm16) := by
  rcases validated_cases h with ⟨hv, he⟩ | ⟨-, he⟩
  · exact ⟨hv r (by simp), by simpa using he⟩
  · simp at he

theorem exec_loadhi_next {r : RegIndex} {imm16 : Imm16} {s t : State} (h : exec (.loadhi r imm16) s = .next t) :
    r.toNat < s.nRegs ∧ t = s.writeReg r.toNat (mergeHigh (s.readReg r.toNat) imm16) := by
  rcases validated_cases h with ⟨hv, he⟩ | ⟨-, he⟩
  · exact ⟨hv r (by simp), by simpa using he⟩
  · simp at he

theorem exec_add_next {r1 r2 r3 : RegIndex} {s t : State} (h : exec (.add r1 r2 r3) s = .next t) :
    r3.toNat < s.nRegs ∧ t = s.writeReg r3.toNat (aluAdd (s.readReg r1.toNat) (s.readReg r2.toNat)) := by
  rcases validated_cases h with ⟨hv, he⟩ | ⟨-, he⟩
  · exact ⟨hv r3 (by simp), by simpa using he⟩
  · simp at he

theorem exec_sub_next {r1 r2 r3 : RegIndex} {s t : State} (h : exec (.sub r1 r2 r3) s = .next t) :
    r3.toNat < s.nRegs ∧ t = s.writeReg r3.toNat (aluSub (s.readReg r1.toNat) (s.readReg r2.toNat)) := by
  rcases validated_cases h with ⟨hv, he⟩ | ⟨-, he⟩
  · exact ⟨hv r3 (by simp), by simpa using he⟩
  · simp at he

theorem exec_store_next {r1 r2 : RegIndex} {offset : Byte} {s t : State} (h : exec (.store r1 r2 offset) s = .next t) :
    s.memWrite (effectiveAddress (s.readReg r1.toNat) offset) (s.readReg r2.toNat) = .ok t := by
  rcases validated_cases h with ⟨-, he⟩ | ⟨-, he⟩
  · rcases storeWord_cases he.symm with ⟨u, hw, hu⟩ | ⟨k, -, hk⟩
    · simp only [Host.Outcome.next.injEq] at hu; exact hu ▸ hw
    · simp at hk
  · simp at he

theorem exec_load_next {r1 r2 : RegIndex} {offset : Byte} {s t : State} (h : exec (.load r1 r2 offset) s = .next t) :
    r2.toNat < s.nRegs ∧ ∃ v, s.memRead (effectiveAddress (s.readReg r1.toNat) offset) = .ok v ∧
      t = s.writeReg r2.toNat v := by
  rcases validated_cases h with ⟨hv, he⟩ | ⟨-, he⟩
  · rcases loadWord_cases he.symm with ⟨v, hr, hu⟩ | ⟨k, -, hk⟩
    · exact ⟨hv r2 (by simp), v, hr, by simpa using hu⟩
    · simp at hk
  · simp at he

theorem exec_push_next {r1 : RegIndex} {s t : State} (h : exec (.push r1) s = .next t) :
    r1.toNat < s.nRegs ∧
      (decrementSp s).memWrite (decrementSp s).sp ((decrementSp s).readReg r1.toNat) = .ok t := by
  rcases validated_cases h with ⟨hv, he⟩ | ⟨-, he⟩
  · rcases storeWord_cases he.symm with ⟨u, hw, hu⟩ | ⟨k, -, hk⟩
    · simp only [Host.Outcome.next.injEq] at hu; exact ⟨hv r1 (by simp), hu ▸ hw⟩
    · simp at hk
  · simp at he

theorem exec_pop_next {r1 : RegIndex} {s t : State} (h : exec (.pop r1) s = .next t) :
    r1.toNat < s.nRegs ∧ ∃ v, s.memRead s.sp = .ok v ∧ t = incrementSp (s.writeReg r1.toNat v) := by
  rcases validated_cases h with ⟨hv, he⟩ | ⟨-, he⟩
  · rcases loadWord_cases he.symm with ⟨v, hr, hu⟩ | ⟨k, -, hk⟩
    · exact ⟨hv r1 (by simp), v, hr, by simpa using hu⟩
    · simp at hk
  · simp at he

/-! ## Each instruction, when it fails -/

/-- Every way an instruction can fail (R104, R163): an invalid index, or, with valid indices, the failing access of
a memory instruction, with the state as it stands, except that PUSH's failing store comes after its decrement. -/
theorem exec_fault_cases {i : Instr} {s : State} {f : Fault} (h : exec i s = .fault f) :
    ((∃ r ∈ i.referenced, s.nRegs ≤ r.toNat) ∧ f = .execute .decRegister s.instrAddr s) ∨
      ((∀ r ∈ i.referenced, r.toNat < s.nRegs) ∧
      ((∃ r1 r2 offset k, i = .store r1 r2 offset ∧
        s.memRead (effectiveAddress (s.readReg r1.toNat) offset) = .fail k ∧
        f = .execute k (effectiveAddress (s.readReg r1.toNat) offset) s) ∨
      (∃ r1 r2 offset k, i = .load r1 r2 offset ∧
        s.memRead (effectiveAddress (s.readReg r1.toNat) offset) = .fail k ∧
        f = .execute k (effectiveAddress (s.readReg r1.toNat) offset) s) ∨
      (∃ r1 k, i = .push r1 ∧ (decrementSp s).memRead (decrementSp s).sp = .fail k ∧
        f = .execute k (decrementSp s).sp (decrementSp s)) ∨
      (∃ r1 k, i = .pop r1 ∧ s.memRead s.sp = .fail k ∧ f = .execute k s.sp s))) := by
  cases i with
  | loadli r imm16 =>
    rcases validated_cases h with ⟨-, he⟩ | ⟨hr, he⟩
    · simp at he
    · exact .inl ⟨hr, by simpa using he⟩
  | loadhi r imm16 =>
    rcases validated_cases h with ⟨-, he⟩ | ⟨hr, he⟩
    · simp at he
    · exact .inl ⟨hr, by simpa using he⟩
  | add r1 r2 r3 =>
    rcases validated_cases h with ⟨-, he⟩ | ⟨hr, he⟩
    · simp at he
    · exact .inl ⟨hr, by simpa using he⟩
  | sub r1 r2 r3 =>
    rcases validated_cases h with ⟨-, he⟩ | ⟨hr, he⟩
    · simp at he
    · exact .inl ⟨hr, by simpa using he⟩
  | store r1 r2 offset =>
    rcases validated_cases h with ⟨hv, he⟩ | ⟨hr, he⟩
    · rcases storeWord_cases he.symm with ⟨u, -, hu⟩ | ⟨k, hk, hu⟩
      · simp at hu
      · exact .inr ⟨hv, .inl ⟨r1, r2, offset, k, rfl, memRead_fail_iff_memWrite_fail.mpr hk, by simpa using hu⟩⟩
    · exact .inl ⟨hr, by simpa using he⟩
  | load r1 r2 offset =>
    rcases validated_cases h with ⟨hv, he⟩ | ⟨hr, he⟩
    · rcases loadWord_cases he.symm with ⟨v, -, hu⟩ | ⟨k, hk, hu⟩
      · simp at hu
      · exact .inr ⟨hv, .inr (.inl ⟨r1, r2, offset, k, rfl, hk, by simpa using hu⟩)⟩
    · exact .inl ⟨hr, by simpa using he⟩
  | push r1 =>
    rcases validated_cases h with ⟨hv, he⟩ | ⟨hr, he⟩
    · rcases storeWord_cases he.symm with ⟨u, -, hu⟩ | ⟨k, hk, hu⟩
      · simp at hu
      · exact .inr ⟨hv, .inr (.inr (.inl ⟨r1, k, rfl, memRead_fail_iff_memWrite_fail.mpr hk, by simpa using hu⟩))⟩
    · exact .inl ⟨hr, by simpa using he⟩
  | pop r1 =>
    rcases validated_cases h with ⟨hv, he⟩ | ⟨hr, he⟩
    · rcases loadWord_cases he.symm with ⟨v, -, hu⟩ | ⟨k, hk, hu⟩
      · simp at hu
      · exact .inr ⟨hv, .inr (.inr (.inr ⟨r1, k, rfl, hk, by simpa using hu⟩))⟩
    · exact .inl ⟨hr, by simpa using he⟩

/-! ## SP after the two stack updates -/

theorem decrementSp_sp {s : State} (h : s.spi < s.nRegs) : (decrementSp s).sp = s.sp - 4 := by
  simp only [decrementSp, State.sp, writeReg_spi, readReg_writeReg_same h, aluSub]

theorem incrementSp_sp {s : State} (h : s.spi < s.nRegs) : (incrementSp s).sp = s.sp + 4 := by
  simp only [incrementSp, State.sp, writeReg_spi, readReg_writeReg_same h, aluAdd]

theorem decrementSp_readReg {s : State} (h : s.spi < s.nRegs) (i : Nat) :
    (decrementSp s).readReg i = if i = s.spi then s.sp - 4 else s.readReg i := readReg_writeReg h _ i

theorem incrementSp_readReg {s : State} (h : s.spi < s.nRegs) (i : Nat) :
    (incrementSp s).readReg i = if i = s.spi then s.sp + 4 else s.readReg i := readReg_writeReg h _ i

theorem advance_pc {s : State} (h : s.pci < s.nRegs) : s.advance.pc = s.pc + 4 := by
  simp only [State.advance, State.pc, writeReg_pci, readReg_writeReg_same h, aluAdd]

theorem advance_readReg_pci {s : State} (h : s.pci < s.nRegs) : s.advance.readReg s.pci = s.pc + 4 :=
  readReg_writeReg_same h _

theorem advance_readReg_ne {s : State} {i : Nat} (h : i ≠ s.pci) : s.advance.readReg i = s.readReg i :=
  readReg_writeReg_ne h _

end Sys2Proof.Machine
end

