-- ==== Sys2Proof/Laws/PerInstr.lean ====
section
/-! SUPPORT. Laws of every instruction as syntax, one lemma per constructor: the canonical word's opcode byte is the
map's byte for the instruction (R81, R84). -/

namespace Sys2Proof.Laws.OpcodePlace

open Sys2Proof

/-- The opcode byte of the canonical word is the map's byte for the instruction, whatever the map. -/
def Statement (i : Instr) : Prop := ∀ m : OpcodeMap, opcodeField (encode m i) = i.opcode m

theorem loadli (r : RegIndex) (imm16 : Imm16) : Statement (.loadli r imm16) := fun _ => opcodeField_format1 ..
theorem loadhi (r : RegIndex) (imm16 : Imm16) : Statement (.loadhi r imm16) := fun _ => opcodeField_format1 ..
theorem add (r1 r2 r3 : RegIndex) : Statement (.add r1 r2 r3) := fun _ => opcodeField_format23 ..
theorem sub (r1 r2 r3 : RegIndex) : Statement (.sub r1 r2 r3) := fun _ => opcodeField_format23 ..
theorem store (r1 r2 : RegIndex) (offset : Byte) : Statement (.store r1 r2 offset) := fun _ => opcodeField_format23 ..
theorem load (r1 r2 : RegIndex) (offset : Byte) : Statement (.load r1 r2 offset) := fun _ => opcodeField_format23 ..
theorem push (r1 : RegIndex) : Statement (.push r1) := fun _ => opcodeField_format1 ..
theorem pop (r1 : RegIndex) : Statement (.pop r1) := fun _ => opcodeField_format1 ..

end Sys2Proof.Laws.OpcodePlace
end

