-- ==== Sys2Proof/Laws/Run.lean ====
section
/-! SUPPORT. What one step and one call can do, and the equations of runs. -/

namespace Sys2Proof.Machine

open Sys2Proof

/-- What a register reads once PC has been advanced (R104). -/
theorem advance_readReg {s : State} (h : s.pci < s.nRegs) (i : Nat) : s.advance.readReg i = s.seenReg i := by
  by_cases hi : i = s.pci
  · subst hi; simp only [State.seenReg, if_true, advance_readReg_pci h]
  · simp only [State.seenReg, hi, if_false, advance_readReg_ne hi]

theorem advance_sp {s : State} (h : s.Inv) : s.advance.sp = s.sp := by
  rw [State.sp, advance_spi, advance_readReg_ne h.spi_ne_pci]; rfl

/-- `pc0` is found again after the advance (R161). -/
theorem advance_instrAddr {s : State} (h : s.Inv) : s.advance.instrAddr = s.pc := by
  simp only [State.instrAddr, advance_pc h.pci_lt, aluSub, BitVec.add_sub_cancel]

/-- Everything a failing step can be: the fetch, the decode, or the instruction (R105). -/
theorem step_fault_cases {s : State} {f : Fault} (h : step s = .fault f) :
    (∃ k, s.memRead s.pc = .fail k ∧ f = .fetch k s.pc s) ∨
    (∃ w e, s.memRead s.pc = .ok w ∧ decode s.soc.opcodeMap w = .error e ∧
      f = .execute .decOpcode s.advance.instrAddr s.advance) ∨
    (∃ w i, s.memRead s.pc = .ok w ∧ decode s.soc.opcodeMap w = .ok i ∧ exec i s.advance = .fault f) := by
  simp only [step, cycle, State.fetch] at h
  split at h
  · rename_i k hk
    exact .inl ⟨k, hk, by simpa [failFetch] using h.symm⟩
  · rename_i w hw
    simp only [runWord, advance_soc] at h
    split at h
    · rename_i e he
      exact .inr (.inl ⟨w, e, hw, he, by simpa [failExecute] using h.symm⟩)
    · rename_i i he
      exact .inr (.inr ⟨w, i, hw, he, h⟩)

/-- A completed step fetched a word, decoded it and completed its instruction at the advanced state (R105). -/
theorem step_next_cases {s t : State} (h : step s = .next t) :
    ∃ w i, s.memRead s.pc = .ok w ∧ decode s.soc.opcodeMap w = .ok i ∧ exec i s.advance = .next t := by
  simp only [step, cycle, State.fetch] at h
  split at h
  · simp [failFetch] at h
  · rename_i w hw
    simp only [runWord, advance_soc] at h
    split at h
    · simp [failExecute] at h
    · rename_i i he
      exact ⟨w, i, hw, he, h⟩

theorem hostRun_zero (s : State) : hostRun 0 s = .next s := rfl

theorem hostRun_succ (k : Nat) (s : State) :
    hostRun (k + 1) s =
      match step s with
      | .next t => hostRun k t
      | .fault f => .fault f
      | .refused r => .refused r := by
  have run_succ : ∀ (M : Host.Core) (x : M.State) (o : Host.Outcome M.State M.Fault M.Refusal), M.step x = o →
      M.run (k + 1) x =
        match o with
        | .next t => M.run k t
        | .fault f => .fault f
        | .refused r => .refused r := by
    intro M x o h
    cases o <;> simp only [Host.Core.run, h]
  have h := run_succ Sys2Proof.core s (step s) rfl
  unfold hostRun
  rw [h]
  cases step s <;> rfl

/-- What the host sees of a failing call does not depend on the state before it (R163). -/
theorem callOf_fault (s t : State) (f : Fault) : callOf s (.fault f) = callOf t (.fault f) := by
  cases f <;> rfl

theorem callTimes_succ (k : Nat) (s : State) : callTimes (k + 1) s = callTimes k (execute s).after := rfl

theorem runItems_nil (s : State) : runItems [] s = .next s := rfl

/-- A completed expansion ran its first word and then the rest. -/
theorem runItems_cons_next {i : AsmItem} {is : List AsmItem} {s t u : State}
    (h : runWord (i.toWord s.soc.opcodeMap) s.advance = .next t) (h' : runItems is t = .next u) :
    runItems (i :: is) s = .next u := by simp only [runItems, h, h']

end Sys2Proof.Machine
end

