-- ==== Sys2Proof/Tests/Slice0.lean ====
section
/-! SUPPORT. The model's own tests. Expected values come from 95_test_vectors.md (W and V numbers) and from the tables of
30_encoding.md, computed by the spec, not by the model. Then one witness for each obligation with hypotheses. -/

namespace Sys2Proof.Tests

open Sys2Proof Sys2Proof.Machine

/-! ## Helpers -/

/-- The test configuration TC (D23) with a byte order, registers and one word at PC's address 0. -/
def tc (e : Endian) (w : Word) (regs : List Word) : State :=
  (writeWord 0 0 w { State.reset with soc := { State.reset.soc with endian := e }, regs := regs }).after

/-- TC with the memory device's parameters and range changed. -/
def tcMem (base : Word) (range : AddrRange) (cpuRange : Option AddrRange) (pc w : Word) : State :=
  (writeWord 0 0xFC w
    { soc := State.reset.soc, regs := [0, 0, 0, 0, 0, 0, 0, pc],
      mems := [{ size := 0x100, base := base, fill := 0, cells := [] }],
      registry := [{ role := .slave, device := .memory 0, range := some range },
        { role := .master, device := .cpu, range := cpuRange }] }).after

/-- The next state's view, where the outcome is one. -/
def nextVal {α : Type} (o : Out) (f : State → α) : Option α :=
  match o with
  | .next t => some (f t)
  | _ => none

/-- The failure's kind and address, with a view of the state it left. -/
def faultVal {α : Type} (o : Out) (f : State → α) : Option (Phase × FailKind × Word × α) :=
  match o with
  | .fault (.fetch k a t) => some (.fetch, k, a, f t)
  | .fault (.execute k a t) => some (.execute, k, a, f t)
  | _ => none

/-- Two registers of a state. -/
def two (i j : Nat) (s : State) : Word × Word := (s.readReg i, s.readReg j)

/-! ## Well-formedness: each check refuses an ill-formed term -/

theorem test_index_out_of_range_refused : Instr.wellFormed 8 (.add 0 8 1) = false := by decide
theorem test_last_index_accepted : Instr.wellFormed 8 (.add 0 7 1) = true := by decide
theorem test_opcode_map_duplicate_refused : OpcodeMap.wf { OpcodeMap.default with pop := 0x01 } = false := by decide
theorem test_memory_of_size_zero_refused : MemParams.wf { size := 0, base := 0, fill := 0 } = false := by decide
theorem test_memory_over_size_refused : MemParams.wf { size := 2 ^ 32 + 1, base := 0, fill := 0 } = false := by decide
theorem test_zero_sentinel_refused : SocParams.wf { Params.reference.soc with regSentinel := 0 } = false := by decide
theorem test_two_registers_refused : Params.wf { Params.reference with nRegs := 2 } = false := by decide
theorem test_too_many_registers_refused : Params.wf { Params.reference with nRegs := 257 } = false := by decide
theorem test_missing_cpu_refused :
    Params.wf { Params.reference with busConfig := Params.reference.busConfig.take 1 } = false := by decide
theorem test_absent_memory_refused : Params.wf { Params.reference with memories := [] } = false := by decide
theorem test_reference_accepted : Params.wf Params.reference = true := by decide

/-! ## Decoding: words written bit by bit from R81 and R84 -/

theorem test_decode_loadli : decode .default 0b00000001_00000111_0001001000110100 = .ok (.loadli 7 0x1234) := by decide
theorem test_decode_loadhi : decode .default 0b00000010_00000000_1010101111001101 = .ok (.loadhi 0 0xABCD) := by decide
theorem test_decode_add : decode .default 0b00000011_00000001_00000010_00000100 = .ok (.add 1 2 4) := by decide
theorem test_decode_sub : decode .default 0b00000100_00000001_00000010_00000100 = .ok (.sub 1 2 4) := by decide
theorem test_decode_store : decode .default 0b00000101_00000001_00000010_11111100 = .ok (.store 1 2 0xFC) := by decide
theorem test_decode_load : decode .default 0b00000110_00000001_00000010_01111111 = .ok (.load 1 2 0x7F) := by decide
theorem test_decode_push : decode .default 0b00000111_00000101_11111111_11111111 = .ok (.push 5) := by decide
theorem test_decode_pop : decode .default 0b00001000_11111111_00000000_00000000 = .ok (.pop 255) := by decide
theorem test_decode_unmapped : decode .default 0x09000000 = .error (.decOpcode 0x09) := by decide
theorem test_decode_truncated : decodeBytes .default .big [0x01, 0x00, 0x12] = .error .truncated := by decide

/-- R82: the LITTLE image of LOADLI r0, 0x1234, and V16's misordered one. -/
theorem test_decode_little_image :
    decodeBytes .default .little [0x34, 0x12, 0x00, 0x01] = .ok (.loadli 0 0x1234, []) ∧
      decodeBytes .default .little [0x01, 0x00, 0x12, 0x34] = .error (.decOpcode 0x34) := by decide

/-! ## One step per instruction (95_test_vectors.md) -/

/-- W7. -/
theorem test_loadli_keeps_high_half :
    nextVal (step (tc .big 0x01001234 State.reset.regs)) (two 0 7) = some (0xCDCD1234, 4) := by decide
/-- V24. -/
theorem test_loadli_pc_jumps : nextVal (step (tc .big 0x01070040 State.reset.regs)) State.pc = some 0x40 := by decide
/-- V23. -/
theorem test_loadhi_keeps_low_half :
    nextVal (step (tc .big 0x0200FFFF [0x12345678, 0, 0, 0, 0, 0, 0, 0])) (two 0 7) = some (0xFFFF5678, 4) := by decide
/-- V25's shape at address 0: LOADHI pc, 0 only advances PC. -/
theorem test_loadhi_pc_is_nop : nextVal (step (tc .big 0x02070000 State.reset.regs)) State.pc = some 4 := by decide
/-- V30. -/
theorem test_add_wraps :
    nextVal (step (tc .big 0x03000102 [0xFFFFFFFF, 1, 9, 0, 0, 0, 0, 0])) (two 2 7) = some (0, 4) := by decide
/-- V36: a read of PC gives pc0 + 4. -/
theorem test_add_reads_advanced_pc :
    nextVal (step (tc .big 0x03070001 [0x10, 0, 0, 0, 0, 0, 0, 0])) (two 1 0) = some (0x14, 0x10) := by decide
/-- W8: the destination is a source. -/
theorem test_sub_of_negative :
    nextVal (step (tc .big 0x04000101 [4, 0xFFFFFFFD, 0, 0, 0, 0, 0, 0])) (two 1 0) = some (7, 4) := by decide
/-- V38. -/
theorem test_sub_pc_jumps_to_zero :
    nextVal (step (tc .big 0x04070707 State.reset.regs)) State.pc = some 0 := by decide
/-- V41, offset -128, BIG bytes. -/
theorem test_store_negative_offset :
    nextVal (step (tc .big 0x05010080 [0xAABBCCDD, 0x100, 0, 0, 0, 0, 0, 0])) (fun t => (t.byteAt 0 0x80, t.byteAt 0 0x83))
      = some (some 0xAA, some 0xDD) := by decide
/-- W10, LITTLE bytes. -/
theorem test_store_little_bytes :
    nextVal (step (tc .little 0x050100FC [0xDEADBEEF, 0x80, 0, 0, 0, 0, 0, 0])) (fun t => (t.byteAt 0 0x7C, t.byteAt 0 0x7F))
      = some (some 0xEF, some 0xDE) := by decide
/-- V49's shape: a PC-relative load, here of the instruction word itself (offset -4 from pc0 + 4). -/
theorem test_load_pc_relative :
    nextVal (step (tc .big 0x060700FC State.reset.regs)) (two 0 7) = some (0x060700FC, 4) := by decide
/-- V48. -/
theorem test_load_unrouted_fails :
    faultVal (step (tc .big 0x06010200 State.reset.regs)) (two 2 7)
      = some (.execute, .routing, 0xCDCDCDCD, (0xCDCDCDCD, 4)) := by decide
/-- V60: PUSH sp stores the decremented SP. -/
theorem test_push_sp :
    nextVal (step (tc .big 0x07060000 [0, 0, 0, 0, 0, 0, 0x100, 0])) (fun t => (t.sp, t.memRead 0xFC))
      = some (0xFC, .ok 0xFC) := by decide
/-- V62: SP stays decremented. -/
theorem test_push_failing_store :
    faultVal (step (tc .big 0x07000000 State.reset.regs)) (fun t => (t.sp, t.pc))
      = some (.execute, .routing, 0xCDCDCDC9, (0xCDCDCDC9, 4)) := by decide
/-- V61's rule at SP = 0: POP sp gives the word read plus 4. -/
theorem test_pop_sp :
    nextVal (step (tc .big 0x08060000 [0, 0, 0, 0, 0, 0, 0, 0])) State.sp = some 0x08060004 := by decide
/-- V67's shape: POP pc jumps to the word read and increments SP. -/
theorem test_pop_pc :
    nextVal (step (tc .big 0x08070000 [0, 0, 0, 0, 0, 0, 0, 0])) (two 7 6) = some (0x08070000, 4) := by decide

/-! ## The cycle's failures -/

/-- V4. -/
theorem test_bad_register : faultVal (step (tc .big 0x01080000 State.reset.regs)) (two 0 7)
    = some (.execute, .decRegister, 0, (0xCDCDCDCD, 4)) := by decide
/-- V7: SP is not decremented. -/
theorem test_bad_register_push : faultVal (step (tc .big 0x07080000 [0, 0, 0, 0, 0, 0, 0x100, 0])) (two 6 7)
    = some (.execute, .decRegister, 0, (0x100, 4)) := by decide
/-- V3. -/
theorem test_halt_word : faultVal (step (tc .big 0xFF000000 State.reset.regs)) State.pc
    = some (.execute, .decOpcode, 0, 4) := by decide
/-- V9 and V10. -/
theorem test_fetch_unrouted_and_misaligned :
    faultVal (step (tc .big 0 [0, 0, 0, 0, 0, 0, 0, 0x100])) State.pc = some (.fetch, .routing, 0x100, 0x100) ∧
      faultVal (step (tc .big 0 [0, 0, 0, 0, 0, 0, 0, 2])) State.pc = some (.fetch, .devMisaligned, 2, 2) := by decide
/-- V12 and V13. -/
theorem test_fetch_bounds_and_cpu :
    faultVal (step (tcMem 0 { start := 0, stop := 0x1FF } none 0x100 0)) State.pc = some (.fetch, .devBounds, 0x100, 0x100) ∧
      faultVal (step (tcMem 0 { start := 0, stop := 0xFF } (some { start := 0x1000, stop := 0x1FFF }) 0x1000 0)) State.pc
        = some (.fetch, .devNotAccessible, 0x1000, 0x1000) := by decide
/-- V14: the advance wraps. -/
theorem test_advance_wraps :
    nextVal (step (tcMem 0xFFFFFF00 { start := 0xFFFFFF00, stop := 0xFFFFFFFF } none 0xFFFFFFFC 0x01000001)) (two 0 7)
      = some (1, 0) := by decide

/-! ## The Bus and the memory device -/

/-- V75: two memories, the first attached wins. -/
theorem test_first_match_wins :
    let s : State :=
      { soc := State.reset.soc, regs := State.reset.regs,
        mems := [{ size := 0x100, base := 0, fill := 0xA0, cells := [] }, { size := 0x100, base := 0x80, fill := 0xB0, cells := [] }],
        registry := [{ role := .slave, device := .memory 0, range := some { start := 0, stop := 0xFF } },
          { role := .slave, device := .memory 1, range := some { start := 0x80, stop := 0x17F } }] }
    s.memRead 0x80 = .ok 0xA0A0A0A0 ∧ s.memRead 0x100 = .ok 0xB0B0B0B0 ∧ s.memRead 0x180 = .fail .routing := by decide
/-- V79: a misconfigured base. -/
theorem test_local_address_wraps :
    (tcMem 0x1000 { start := 0, stop := 0xFF } none 0 0).memRead 0 = .fail .devBounds := by decide
/-- V98 and V100. -/
theorem test_bounds_do_not_wrap_and_alignment_first :
    directRead 0 0xFFFFFFFC .word State.reset = .fail .devBounds ∧ directRead 0 0x101 .word State.reset = .fail .devMisaligned := by
  decide
/-- V94. -/
theorem test_byte_write_inside_word :
    directRead 0 0 .word (directWrite 0 1 .byte 0xAA (tc .big 0x11223344 [])).after = .ok 0x11AA3344 ∧
      directRead 0 0 .word (directWrite 0 1 .byte 0xAA (tc .little 0x11223344 [])).after = .ok 0x1122AA44 := by decide
/-- Writing the fill back removes the cells, so equal memories are equal data. -/
theorem test_canonical_memory : (writeWord 0 0 0 (tc .big 0x11223344 State.reset.regs)).after = State.reset := by decide
/-- V73 and V74. -/
theorem test_attach_twice_and_detach_twice :
    (attach .master .cpu none State.reset).result = .fail .attachDuplicate ∧
      (detach .cpu (detach .cpu State.reset).after).result = .fail .detachNotFound := by decide

/-! ## The assembler (R89, R90) -/

/-- CALL16 of P3's shape, at address 0x18 with N = 8. -/
theorem test_call16_words :
    assembleLines .default 8 0x18 [.call16 0x40 (.r 5)] = some [0x01050028, 0x02050000, 0x07050000, 0x01070040] := by decide
/-- P2's store and P3's return. -/
theorem test_positional_words :
    assembleLines .default 8 0 [.store (.r 1) (.r 0) (.dec (-4)), .load (.r 1) (.r 2) (.hex 0xFC), .pop .pc]
      = some [0x050100FC, 0x060102FC, 0x08070000] := by decide
theorem test_restricted_operands_refused :
    assembleLines .default 8 0 [.clr .pc] = none ∧ assembleLines .default 8 0 [.mov .sp (.r 0)] = none ∧
      assembleLines .default 8 0 [.push (.r 8)] = none ∧ assembleLines .default 8 0 [.store (.r 0) (.r 0) (.dec 128)] = none := by
  decide

/-! ## Witnesses: states and operands that meet the obligations' hypotheses -/

/-- TC with x[0] = 0xDEADBEEF, x[1] = 0x80, SP = 0x100 and the word given at PC = 0. -/
def w0 (w : Word) : State := tc .big w [0xDEADBEEF, 0x80, 0, 0, 0, 0, 0x100, 0]

/-- STORE r1, r0, -4 at PC. -/
def wStore : State := w0 0x050100FC

/-- The legality of a state over TC's registry and one memory, from closed checks. -/
theorem inv_of {s : State} (h : decide (3 ≤ s.nRegs ∧ s.nRegs ≤ 256 ∧ s.soc.regSentinel ≠ 0 ∧ s.soc.opcodeMap.wf = true) = true)
    (hm : s.mems.all (fun d => d.wf && decide (1 ≤ d.size) && decide (d.size ≤ 2 ^ 32)) = true)
    (hn : (s.registry.map (·.device)).Nodup)
    (he : s.registry.all (fun c => (List.range s.mems.length).any (fun m => decide (c.device = .memory m)) || decide (c.device = .cpu)) = true) :
    s.Inv := by
  simp only [decide_eq_true_eq] at h
  simp only [List.all_eq_true, Bool.and_eq_true, decide_eq_true_eq] at hm
  refine { regs_low := h.1, regs_high := h.2.1, sentinel := h.2.2.1, opcodes := h.2.2.2, mem_wf := fun d hd => (hm d hd).1.1,
           mem_size := fun d hd => ⟨(hm d hd).1.2, (hm d hd).2⟩, registered := hn, exist := ?_ }
  intro c hc m hdev
  have := List.all_eq_true.mp he c hc
  simpa [hdev] using this

theorem w0_store_inv : wStore.Inv := inv_of (by decide) (by decide) (by decide) (by decide)

/-- The word an address is backed by, from closed checks. -/
theorem wordAt_of {s : State} {a : Word} {m l : Nat} {d : Memory} (hr : s.route a = some (.memory m)) (hd : s.mems[m]? = some d)
    (h : l = d.localAddr a ∧ d.localAddr a % 4 = 0 ∧ d.localAddr a + 4 ≤ d.size) : WordAt s a m l :=
  wordAt_iff.mpr ⟨d, hr, hd, h.1, h.2.1, h.2.2⟩

/-- The device of `wStore`. -/
def wMem : Memory := (wStore.mems[0]?).getD { size := 0, base := 0, fill := 0, cells := [] }

theorem wStore_mem : wStore.mems[0]? = some wMem := by decide

/-- The last register index (PC) and the last but one are valid: the boundary of R21. -/
theorem witness_register_operands : (7 : RegIndex).toNat < wStore.nRegs ∧ (0 : RegIndex).toNat < wStore.nRegs := by decide
theorem witness_store_operands : wStore.Inv ∧ (1 : RegIndex).toNat < wStore.nRegs ∧ (0 : RegIndex).toNat < wStore.nRegs ∧
    WordAt wStore (effectiveAddress (wStore.readReg 1) 0xFC) 0 0x7C :=
  ⟨w0_store_inv, by decide, by decide, wordAt_of (by decide) wStore_mem (by decide)⟩
/-- The last word of the device is in bounds. -/
theorem witness_last_word : WordAt wStore 0xFC 0 0xFC := wordAt_of (by decide) wStore_mem (by decide)
theorem witness_push_operands : wStore.Inv ∧ (6 : RegIndex).toNat < wStore.nRegs ∧ WordAt wStore (wStore.sp - 4) 0 0xFC :=
  ⟨w0_store_inv, by decide, wordAt_of (by decide) wStore_mem (by decide)⟩

/-- SP = 0, the boundary where the word at SP is backed and the word below it is not. -/
def wSp0 : State := tc .big 0x08060000 [0x81, 0x100, 0, 0, 0, 0, 0, 0]

theorem wSp0_inv : wSp0.Inv := inv_of (by decide) (by decide) (by decide) (by decide)
theorem wSp0_mem : ∃ d, wSp0.mems[0]? = some d ∧ 0 = d.localAddr 0 ∧ d.localAddr 0 % 4 = 0 ∧ d.localAddr 0 + 4 ≤ d.size :=
  ⟨_, rfl, by decide, by decide, by decide⟩
theorem witness_pop_operands : wSp0.Inv ∧ (6 : RegIndex).toNat < wSp0.nRegs ∧ WordAt wSp0 wSp0.sp 0 0 := by
  obtain ⟨d, hd, h⟩ := wSp0_mem
  exact ⟨wSp0_inv, by decide, wordAt_of (by decide) hd h⟩

/-- Each failure kind of an access, and each clause of FailingAccessFailsTheInstruction: x[0] = 0x81 is misaligned,
x[1] = 0x100 unrouted, the word below SP = 0 unrouted (0xFFFFFFFC). -/
theorem witness_failing_accesses :
    AccessFails wSp0 (effectiveAddress (wSp0.readReg 0) 0) .devMisaligned ∧
    AccessFails wSp0 (effectiveAddress (wSp0.readReg 1) 0) .routing ∧ AccessFails wSp0 (wSp0.sp - 4) .routing := by
  obtain ⟨d, hd, h⟩ := wSp0_mem
  refine ⟨.misaligned 0 d (route_eq_some_iff.mp (by decide)) hd ?_, .routing (route_eq_none_iff.mp (by decide)),
    .routing (route_eq_none_iff.mp (by decide))⟩
  have hd' : d = { size := 0x100, base := 0, fill := 0, cells := [(0, 0x08), (1, 0x06)] } := by
    have : wSp0.mems[0]? = some { size := 0x100, base := 0, fill := 0, cells := [(0, 0x08), (1, 0x06)] } := by decide
    rw [this] at hd
    simpa using hd.symm
  subst hd'
  decide
/-- POP's failing clause: SP = 0x100. -/
theorem witness_failing_pop : AccessFails wStore wStore.sp .routing := .routing (route_eq_none_iff.mp (by decide))

/-- The two other kinds: a range larger than the memory, and the CPU with a range (V12, V13). -/
def wOdd : State := tcMem 0 { start := 0, stop := 0x1FF } (some { start := 0x1000, stop := 0x1FFF }) 0x1000 0

theorem wOdd_inv : wOdd.Inv := inv_of (by decide) (by decide) (by decide) (by decide)
theorem witness_bounds_and_cpu : AccessFails wOdd 0x100 .devBounds ∧ AccessFails wOdd wOdd.pc .devNotAccessible := by
  refine ⟨.bounds 0 { size := 0x100, base := 0, fill := 0, cells := [] } (route_eq_some_iff.mp (by decide)) (by decide) (by decide)
    (by decide), .notAccessible (route_eq_some_iff.mp (by decide))⟩

/-- An invalid index, the first one past the end. -/
theorem witness_invalid_index : ∃ r ∈ (Instr.loadli 8 0).referenced, wStore.nRegs ≤ r.toNat := ⟨8, by decide, by decide⟩
theorem witness_invalid_index_step : (w0 0x01080000).Inv ∧ (w0 0x01080000).memRead (w0 0x01080000).pc = .ok 0x01080000 ∧
    decode (w0 0x01080000).soc.opcodeMap 0x01080000 = .ok (.loadli 8 0) :=
  ⟨inv_of (by decide) (by decide) (by decide) (by decide), by decide, by decide⟩
theorem witness_unmapped_opcode : (w0 0x09000000).Inv ∧ (w0 0x09000000).memRead (w0 0x09000000).pc = .ok 0x09000000 ∧
    opcodeField 0x09000000 ∉ (w0 0x09000000).soc.opcodeMap.codes :=
  ⟨inv_of (by decide) (by decide) (by decide) (by decide), by decide, by decide⟩

/-- A failing instruction, a failing fetch, a failing PUSH store, a completing instruction and step. -/
theorem witness_outcomes :
    (faultVal (exec (.load 0 0 0) wSp0) State.pc).isSome = true ∧ (faultVal (step wOdd) State.pc).isSome = true ∧
    (faultVal (step (tc .big 0x07000000 [0, 0, 0, 0, 0, 0, 0, 0])) State.sp) = some (.execute, .routing, 0xFFFFFFFC, 0xFFFFFFFC) ∧
    (nextVal (exec (.add 0 1 2) wStore) State.pc).isSome = true ∧ (nextVal (step wStore) State.pc) = some 4 := by decide
/-- FailuresArePrecise with PC as the base (R104): STORE pc, r0, 127 at 0xFC fails at pc0 + 4 + 127. -/
theorem witness_failing_pc_base :
    faultVal (step (tcMem 0 { start := 0, stop := 0xFF } none 0xFC 0x0507007F)) (fun t => (t.pc, t.readReg 0))
      = some (.execute, .routing, 0x17F, (0x100, 0)) := by decide
/-- ControlFlowsOnlyThroughPcWrites: the STORE of `wStore` writes no register. -/
theorem witness_straight_line : wStore.memRead wStore.pc = .ok 0x050100FC ∧
    decode wStore.soc.opcodeMap 0x050100FC = .ok (.store 1 0 0xFC) ∧ wStore.pci ∉ regsWritten wStore.nRegs (.store 1 0 0xFC) := by
  decide
theorem witness_step_bytes : WordAt wStore wStore.pc 0 0 ∧ wStore.byteAt 0 0 = some 0x05 ∧ wStore.byteAt 0 1 = some 0x01 ∧
    wStore.byteAt 0 2 = some 0x00 ∧ wStore.byteAt 0 3 = some 0xFC ∧
    decodeBytes wStore.soc.opcodeMap wStore.soc.endian [0x05, 0x01, 0x00, 0xFC] = .ok (.store 1 0 0xFC, []) :=
  ⟨wordAt_of (by decide) wStore_mem (by decide), by decide, by decide, by decide, by decide, by decide⟩
/-- A store over the word at PC, and a push over it (P4's shape). -/
theorem witness_self_modifying :
    nextVal (exec (.store 1 0 0x80) wStore) (fun t => decide (t.pc = effectiveAddress (wStore.readReg 1) 0x80)) = some true ∧
    nextVal (exec (.push 0) (tc .big 0 [1, 0, 0, 0, 0, 0, 4, 0])) (fun t => decide (t.pc = t.sp)) = some true := by decide

/-- Every clause of DecodeFollowsTheTable has a word, the last one at the first unmapped opcode. -/
theorem witness_opcodes : OpcodeMap.default.wf = true ∧
    (0x01FFFFFF : Word).toNat / 2 ^ 24 = OpcodeMap.default.loadli.toNat ∧
    (0x02000000 : Word).toNat / 2 ^ 24 = OpcodeMap.default.loadhi.toNat ∧
    (0x03000000 : Word).toNat / 2 ^ 24 = OpcodeMap.default.add.toNat ∧
    (0x04000000 : Word).toNat / 2 ^ 24 = OpcodeMap.default.sub.toNat ∧
    (0x05000000 : Word).toNat / 2 ^ 24 = OpcodeMap.default.store.toNat ∧
    (0x06000000 : Word).toNat / 2 ^ 24 = OpcodeMap.default.load.toNat ∧
    (0x07000000 : Word).toNat / 2 ^ 24 = OpcodeMap.default.push.toNat ∧
    (0x08FFFFFF : Word).toNat / 2 ^ 24 = OpcodeMap.default.pop.toNat ∧
    (∀ c ∈ OpcodeMap.default.codes, (0x09000000 : Word).toNat / 2 ^ 24 ≠ c.toNat) := by decide
/-- OnlyPushAndPopIgnoreBits: one word of each kind, and two words with different ignored bits. -/
theorem witness_canonical_words : decode .default 0x030001FF = .ok (.add 0 1 255) ∧ decode .default 0x0700FFFF = .ok (.push 0) ∧
    (0x07000000 : Word).toNat / 65536 = (0x0700FFFF : Word).toNat / 65536 := by decide

/-- The memory device's clauses: each width misaligned, at the first place out of bounds, and at the last in bounds. -/
theorem witness_local_accesses : wMem.wf = true ∧ 3 % Width.word.bytes ≠ 0 ∧ (0x100 % Width.byte.bytes = 0 ∧ wMem.size < 0x100 + Width.byte.bytes) ∧
    (0xFE % Width.half.bytes = 0 ∧ 0xFE + Width.half.bytes ≤ wMem.size) ∧ (0xBEEF : Word).toNat < 2 ^ (8 * Width.half.bytes) := by decide
theorem witness_byte_order : (0xFF : Word).toNat < 2 ^ (8 * Width.byte.bytes) ∧ ([1, 2, 3, 4] : List Byte).length ≤ 4 := by decide

/-- Routing: a routed address, an unrouted one, the CPU. -/
theorem witness_routes : RoutesTo wOdd 0x1FF (.memory 0) ∧ RoutesTo wOdd 0x1000 .cpu ∧ Unrouted wOdd 0x200 :=
  ⟨route_eq_some_iff.mp (by decide), route_eq_some_iff.mp (by decide), route_eq_none_iff.mp (by decide)⟩
/-- RangeBoundsAreInclusive, at the last address of a range, at the one after it (held by no other context), and for an
inverted and an absent range beside another context, which still routes. -/
theorem witness_ranges : wOdd.registry = [] ++ ⟨.slave, .memory 0, some ⟨0, 0x1FF⟩⟩ :: [⟨.master, .cpu, some ⟨0x1000, 0x1FFF⟩⟩] ∧
    (0 : Word).toNat ≤ (0x1FF : Word).toNat ∧ (0x1FF : Word).toNat ≤ (⟨0, 0x1FF⟩ : AddrRange).stop.toNat ∧
    (⟨0, 0x1FF⟩ : AddrRange).stop.toNat + 1 < 2 ^ 32 ∧
    (∀ b ∈ [] ++ [(⟨.master, .cpu, some ⟨0x1000, 0x1FFF⟩⟩ : DeviceContext)], ¬ HoldsAddr b 0x200) ∧
    (⟨0x10, 0x0F⟩ : AddrRange).stop.toNat < (⟨0x10, 0x0F⟩ : AddrRange).start.toNat := by
  refine ⟨by decide, by decide, by decide, by decide, fun b hb => ?_, by decide⟩
  simp only [List.nil_append, List.mem_singleton] at hb
  subst hb
  rw [← holds_iff]
  decide
theorem witness_no_range :
    let cpu : DeviceContext := ⟨.master, .cpu, some ⟨0x1000, 0x1FFF⟩⟩
    let s : State := { wStore with registry := [⟨.slave, .memory 0, some ⟨0x10, 0x0F⟩⟩, cpu] }
    let t : State := { wStore with registry := [⟨.slave, .memory 0, none⟩, cpu] }
    s.memRead 0x10 = .fail .routing ∧ s.memRead 0x1000 = .fail .devNotAccessible ∧ t.memRead 0 = .fail .routing := by decide
/-- A Bus write that succeeds. -/
theorem witness_bus_write : (match wStore.memWrite 0xFC 0x01020304 with | .ok t => t.memRead 0xFC | .fail k => .fail k) = .ok 0x01020304 := by
  decide
/-- The clauses of the request statement, of attach and of detach. -/
theorem witness_requests : wStore.memRead 0 = .ok 0x050100FC ∧ wStore.memRead 1 = .fail .devMisaligned ∧
    wStore.memWrite 0x100 0 = .fail .routing ∧ wStore.registry.map (·.device) = [.memory 0, .cpu] ∧
    (∀ c ∈ wStore.registry, c.device ≠ .memory 1) := by decide
/-- The direct port at each of its clauses: the last halfword, a misaligned one, the first byte and the first word out of
bounds; the same for `writeWord`. -/
theorem witness_direct_port : (directWrite 0 0xFE .half 0xBEEF wStore).result = .ok () ∧
    (directWrite 0 0xFF .half 0xBEEF wStore).result = .fail .devMisaligned ∧ directRead 0 0x100 .byte wStore = .fail .devBounds ∧
    (writeWord 0 0xFC 1 wStore).result = .ok () ∧ (writeWord 0 0x100 1 wStore).result = .fail .devBounds ∧
    (writeWord 0 0xFE 1 wStore).result = .fail .devMisaligned := by decide
/-- Reset: a device, an attached and an unattached one, and a registry whose second context cannot be reset. -/
theorem witness_reset_contexts :
    (resetContexts [⟨.master, .cpu, none⟩] wStore).result = .ok () ∧ devReset (.memory 5) wStore = .fail .resetFailed ∧
    (∃ c ∈ wStore.registry, c.device = .cpu) ∧ (∃ c ∈ wStore.registry, c.device = .memory 0) ∧
    (∀ c ∈ (detach .cpu wStore).after.registry, c.device ≠ .cpu) ∧ (∀ c ∈ wStore.registry, c.device ≠ .memory 1) := by decide
/-- BootReachesTheResetState: parameters other than the reference ones, at the low end of `N`. -/
theorem witness_params : Params.wf
    { Params.reference with
      nRegs := 3,
      soc := { Params.reference.soc with endian := .little, resetVector := 0x80, regSentinel := 1 } } = true := by decide

/-- CallsAreIndependent: a call that fails in FETCH and one that fails in EXECUTE. -/
theorem witness_failing_calls : (execute wOdd).result = .failure .fetch .devNotAccessible 0x1000 ∧
    (execute (w0 0xFF000000)).result = .failure .execute .decOpcode 0 := by decide
/-- RunEndsAtTheFirstFailure: one good call, then a failing one. -/
theorem witness_run : (runCalls 1 wStore).result = .success ∧ (runCalls 2 wStore).calls = 2 ∧
    (runCalls 2 wStore).result = .failure .execute .decOpcode 4 := by decide

/-- ByteOrderIsInvisibleToPrograms: TC in the two byte orders, with the word of STORE r1, r0, -4 in memory, whose byte
images differ. -/
theorem witness_endian_pair :
    let regs : List Word := [0xDEADBEEF, 0x80, 0, 0, 0, 0, 0x100, 0]
    (tc .big 0x050100FC regs).Inv ∧ (tc .little 0x050100FC regs).Inv ∧
      SameButEndian (tc .big 0x050100FC regs) (tc .little 0x050100FC regs) ∧
      (tc .big 0x050100FC regs).mems ≠ (tc .little 0x050100FC regs).mems := by
  refine ⟨inv_of (by decide) (by decide) (by decide) (by decide), inv_of (by decide) (by decide) (by decide) (by decide),
    ⟨rfl, rfl, rfl, rfl, rfl, ?_⟩, by decide⟩
  refine .cons (SameWords.writeBytes (l := 0) ⟨rfl, rfl, rfl, fun l => ?_⟩ rfl rfl 0x050100FC (by decide) (by decide)) .nil
  have fill : ∀ n l, (Memory.afterReset ⟨0x100, 0, 0⟩).readBytes l n = List.replicate n 0 := by
    intro n
    induction n with
    | zero => exact fun _ => rfl
    | succ n ih => exact fun l => by rw [Memory.readBytes, ih, List.replicate_succ]; rfl
  show Memory.localRead .little (Memory.afterReset ⟨0x100, 0, 0⟩) l .word = Memory.localRead .big (Memory.afterReset ⟨0x100, 0, 0⟩) l .word
  unfold Memory.localRead
  rw [fill]
  rfl

/-- The pseudo-instructions' operands: neither SP nor PC, PC itself for MOV and JMPR, and the word below SP backed. -/
theorem witness_pseudo_operands : wStore.Inv ∧ (0 : RegIndex).toNat < wStore.nRegs ∧ (5 : RegIndex).toNat < wStore.nRegs ∧
    (0 : RegIndex).toNat ≠ wStore.pci ∧ (5 : RegIndex).toNat ≠ wStore.pci ∧ (0 : RegIndex).toNat ≠ wStore.spi ∧
    (5 : RegIndex).toNat ≠ wStore.spi ∧ (7 : RegIndex).toNat = wStore.pci ∧ (7 : RegIndex).toNat ≠ wStore.spi ∧
    WordAt wStore (wStore.sp - 4) 0 0xFC ∧ 0xFF ∉ wStore.soc.opcodeMap.codes :=
  ⟨w0_store_inv, by decide, by decide, by decide, by decide, by decide, by decide, by decide, by decide, wordAt_of (by decide) wStore_mem (by decide), by decide⟩
/-- HostOperationsKeepTheInvariant: a device that exists and one that does not. -/
theorem witness_attach_devices : (∀ m, Device.cpu = .memory m → m < wStore.mems.length) ∧ ¬ (1 < wStore.mems.length) :=
  ⟨fun _ h => by simp at h, by decide⟩

end Sys2Proof.Tests
end

section
/-! PROOFS. What every call of `execute()` keeps: a predicate that register writes and completed Bus writes keep is kept
by every call, whatever its outcome. The setup and the legality of states are two such predicates. -/

namespace Sys2Proof.Machine

open Sys2Proof

/-- The predicate is kept by the two ways an instruction changes the state (10_state.md section 1): a register write and
a completed Bus write. -/
structure KeptByWrites (P : State → Prop) : Prop where
  writeReg : ∀ {s : State} (i : Nat) (v : Word), P s → P (s.writeReg i v)
  memWrite : ∀ {s t : State} {a v : Word}, P s → s.memWrite a v = .ok t → P t

namespace KeptByWrites

variable {P : State → Prop} {s t : State} {i : Instr} {f : Fault}

theorem exec_next (hP : KeptByWrites P) (hs : P s) (h : exec i s = .next t) : P t := by
  cases i with
  | loadli r imm16 =>
    obtain ⟨-, rfl⟩ := exec_loadli_next h
    exact hP.writeReg _ _ hs
  | loadhi r imm16 =>
    obtain ⟨-, rfl⟩ := exec_loadhi_next h
    exact hP.writeReg _ _ hs
  | add r1 r2 r3 =>
    obtain ⟨-, rfl⟩ := exec_add_next h
    exact hP.writeReg _ _ hs
  | sub r1 r2 r3 =>
    obtain ⟨-, rfl⟩ := exec_sub_next h
    exact hP.writeReg _ _ hs
  | store r1 r2 offset => exact hP.memWrite hs (exec_store_next h)
  | load r1 r2 offset =>
    obtain ⟨-, v, -, rfl⟩ := exec_load_next h
    exact hP.writeReg _ _ hs
  | push r1 =>
    obtain ⟨-, hw⟩ := exec_push_next h
    exact hP.memWrite (hP.writeReg _ _ hs) hw
  | pop r1 =>
    obtain ⟨-, v, -, rfl⟩ := exec_pop_next h
    exact hP.writeReg _ _ (hP.writeReg _ _ hs)

/-- A failing instruction leaves the state as it stood, except that PUSH has decremented SP (R163). -/
theorem exec_fault (hP : KeptByWrites P) (hs : P s) (h : exec i s = .fault f) (before : State) :
    P (callOf before (.fault f)).after := by
  obtain ⟨-, rfl⟩ | ⟨-, hstore | hload | hpush | hpop⟩ := exec_fault_cases h
  · exact hs
  · obtain ⟨r1, r2, offset, k, -, -, rfl⟩ := hstore
    exact hs
  · obtain ⟨r1, r2, offset, k, -, -, rfl⟩ := hload
    exact hs
  · obtain ⟨r1, k, -, -, rfl⟩ := hpush
    exact hP.writeReg _ _ hs
  · obtain ⟨r1, k, -, -, rfl⟩ := hpop
    exact hs

theorem step_next (hP : KeptByWrites P) (hs : P s) (h : step s = .next t) : P t := by
  obtain ⟨w, i, -, -, hexec⟩ := step_next_cases h
  exact hP.exec_next (hP.writeReg _ _ hs) hexec

theorem step_fault (hP : KeptByWrites P) (hs : P s) (h : step s = .fault f) (before : State) :
    P (callOf before (.fault f)).after := by
  obtain ⟨k, -, rfl⟩ | ⟨w, e, -, -, rfl⟩ | ⟨w, i, -, -, hexec⟩ := step_fault_cases h
  · exact hs
  · exact hP.writeReg _ _ hs
  · exact hP.exec_fault (hP.writeReg _ _ hs) hexec before

/-- Every call keeps it, failing or not (R105). -/
theorem execute_after (hP : KeptByWrites P) (hs : P s) : P (execute s).after := by
  unfold execute
  cases h : step s with
  | next t => exact hP.step_next hs h
  | fault f => exact hP.step_fault hs h s
  | refused r => exact hs

theorem callTimes (hP : KeptByWrites P) (hs : P s) (k : Nat) : P (callTimes k s) := by
  induction k generalizing s with
  | zero => exact hs
  | succ k ih => exact ih (hP.execute_after hs)

end KeptByWrites

theorem keptByWrites_inv : KeptByWrites State.Inv where
  writeReg i v hs := hs.writeReg i v
  memWrite hs h := memWrite_keeps hs h

theorem keptByWrites_sameSetup (s : State) : KeptByWrites (SameSetup s) where
  writeReg i v hs := hs.trans (sameSetup_writeReg _ i v)
  memWrite hs h := hs.trans (memWrite_setup h)

/-- Settles O49: register writes and completed Bus writes keep the invariant, so every step and every call does. -/
theorem stepKeepsTheInvariant : Obligations.StepKeepsTheInvariant := by
  intro s hs
  exact ⟨fun t h => keptByWrites_inv.step_next hs h, keptByWrites_inv.execute_after hs, keptByWrites_inv.callTimes hs⟩

/-- Settles O16: register writes and completed Bus writes keep the setup, so every call does. -/
theorem executeKeepsSetup : Obligations.ExecuteKeepsSetup := fun s =>
  (keptByWrites_sameSetup s).execute_after (sameSetup_refl s)

/-! ## The reset state -/

theorem resetOf_nRegs {p : Params} (h : 1 ≤ p.nRegs) : (State.resetOf p).nRegs = p.nRegs := by
  simp only [State.nRegs, State.resetOf, resetRegs, List.length_append, List.length_replicate, List.length_singleton]
  omega

theorem Params.busWf_iff {p : Params} : p.busWf = true ↔
    (p.busConfig.map (·.device)).Perm (.cpu :: (List.range p.memories.length).map .memory) := by
  simp [Params.busWf]

/-- A legal BUS_CONFIG attaches no device twice. -/
theorem Params.nodup_of_busWf {p : Params} (h : p.busWf = true) : (p.busConfig.map (·.device)).Nodup := by
  have hmem : ((List.range p.memories.length).map Device.memory).Nodup :=
    List.nodup_range.map fun _ _ e => Device.memory.inj e
  exact (Params.busWf_iff.mp h).nodup_iff.mpr (List.nodup_cons.mpr ⟨by simp, hmem⟩)

/-- A legal BUS_CONFIG names existing memory devices only. -/
theorem Params.lt_of_busWf {p : Params} (h : p.busWf = true) {c : DeviceContext} (hc : c ∈ p.busConfig) {m : Nat}
    (hm : c.device = .memory m) : m < p.memories.length := by
  have hdev : Device.memory m ∈ p.busConfig.map (·.device) := List.mem_map.mpr ⟨c, hc, hm⟩
  simpa using (Params.busWf_iff.mp h).mem_iff.mp hdev

/-- Every legal choice of the construction parameters (R5) has a legal reset state. -/
theorem resetOf_inv {p : Params} (h : p.wf = true) : (State.resetOf p).Inv := by
  simp only [Params.wf, SocParams.wf, Bool.and_eq_true, decide_eq_true_eq, bne_iff_ne] at h
  obtain ⟨⟨⟨⟨hlow, hhigh⟩, hsentinel, hmap⟩, hmems⟩, hbus⟩ := h
  have hn : (State.resetOf p).nRegs = p.nRegs := resetOf_nRegs (by omega)
  refine { regs_low := hn ▸ hlow, regs_high := hn ▸ hhigh, sentinel := hsentinel, opcodes := hmap,
           mem_wf := ?_, mem_size := ?_, registered := Params.nodup_of_busWf hbus, exist := ?_ }
  · intro d hd
    obtain ⟨q, -, rfl⟩ := List.mem_map.mp hd
    rfl
  · intro d hd
    obtain ⟨q, hq, rfl⟩ := List.mem_map.mp hd
    simpa [MemParams.wf, Memory.afterReset] using List.all_eq_true.mp hmems q hq
  · intro c hc m hm
    simpa [State.resetOf] using Params.lt_of_busWf hbus hc hm

/-- Settles O48: the reference parameters are legal. -/
theorem resetStateIsLegal : Obligations.ResetStateIsLegal := resetOf_inv (by decide)

end Sys2Proof.Machine
end

section
/-! PROOFS. Introspection (10_state.md R29): the register file and the raw bytes of a memory device, index by index. -/

namespace Sys2Proof.Machine

open Sys2Proof

theorem getRegisterFile_getElem? {s : State} {i : Nat} (hi : i < s.nRegs) :
    (getRegisterFile s)[i]? = some (s.readReg i) := by
  have hlen : i < s.regs.length := hi
  simp [getRegisterFile, State.readReg, hlen]

theorem rawBytes_eq_some {s : State} {m : Nat} {d : Memory} (hd : s.mems[m]? = some d) :
    rawBytes m s = some (d.readBytes 0 d.size) := by
  simp [rawBytes, hd]

/-- The raw byte view is a function of the memory devices alone: neither the registry nor the byte order enters. -/
theorem rawBytes_of_mems {s t : State} (h : t.mems = s.mems) (m : Nat) : rawBytes m t = rawBytes m s := by
  simp only [rawBytes, h]

/-- Settles O42: index by index, the two views are the register file and the device's bytes, and neither looks at the
registry or the byte order. -/
theorem introspectionShowsTheState : Obligations.IntrospectionShowsTheState := by
  intro s
  refine ⟨rfl, fun _ => getRegisterFile_getElem?, ?_, fun m _ _ => ⟨rawBytes_of_mems rfl m, rfl⟩⟩
  intro m d hd
  refine ⟨d.readBytes 0 d.size, rawBytes_eq_some hd, readBytes_length .., fun l hl => ?_⟩
  rw [readBytes_getElem?, if_pos hl, Nat.zero_add]

end Sys2Proof.Machine
end

section
/-! PROOFS. Byte order (20_memory.md R55): assembling as concatenation, and splitting as its inverse. -/

namespace Sys2Proof

/-- LITTLE is BIG on the reversed bytes (R55). -/
theorem assembleBytes_little (bs : List Byte) : assembleBytes .little bs = assembleBytes .big bs.reverse := by
  simp [assembleBytes]

theorem assembleBytes_big_four (b0 b1 b2 b3 : Byte) : assembleBytes .big [b0, b1, b2, b3] = b0 ++ b1 ++ b2 ++ b3 := by
  apply BitVec.eq_of_toNat_eq
  rw [toNat_append_byte, toNat_append_byte, toNat_append_byte]
  simp only [assembleBytes, List.reverse_cons, List.reverse_nil, List.nil_append, List.cons_append, leValue,
    BitVec.toNat_ofNat]
  omega

theorem assembleBytes_big_two (b0 b1 : Byte) : assembleBytes .big [b0, b1] = (b0 ++ b1).setWidth 32 := by
  apply BitVec.eq_of_toNat_eq
  rw [BitVec.toNat_setWidth, toNat_append_byte]
  simp only [assembleBytes, List.reverse_cons, List.reverse_nil, List.nil_append, List.cons_append, leValue,
    BitVec.toNat_ofNat]
  omega

theorem assembleBytes_little_four (b0 b1 b2 b3 : Byte) :
    assembleBytes .little [b0, b1, b2, b3] = b3 ++ b2 ++ b1 ++ b0 :=
  (assembleBytes_little _).trans (assembleBytes_big_four ..)

theorem assembleBytes_little_two (b0 b1 : Byte) : assembleBytes .little [b0, b1] = (b1 ++ b0).setWidth 32 :=
  (assembleBytes_little _).trans (assembleBytes_big_two ..)

theorem assembleBytes_one (e : Endian) (b : Byte) : assembleBytes e [b] = b.setWidth 32 := by
  apply BitVec.eq_of_toNat_eq
  cases e <;> simp [assembleBytes, leValue]

/-- `Assemble` after `Split` gives back a value that fits the width (R55, R56). -/
theorem assemble_split_of_lt (e : Endian) {n : Nat} {v : Word} (h : v.toNat < 2 ^ (8 * n)) :
    assembleBytes e (splitBytes e n v) = v := by
  have hlt : v.toNat < 256 ^ n := by rwa [Nat.pow_mul] at h
  rw [assemble_split, Nat.mod_eq_of_lt hlt, BitVec.ofNat_toNat, BitVec.setWidth_eq]

/-- Settles O29: four, two and one bytes assemble to their concatenation, most significant first under BIG and, being
BIG on the mirrored bytes, least significant first under LITTLE. -/
theorem byteOrderIsStandard : Obligations.ByteOrderIsStandard :=
  ⟨fun b0 _ _ _ => ⟨assembleBytes_big_four .., assembleBytes_little_four .., assembleBytes_big_two ..,
    assembleBytes_little_two .., (assembleBytes_one · b0)⟩, split_assemble, fun e _ _ => assemble_split_of_lt e⟩

end Sys2Proof
end

section
/-! PROOFS. One memory device (20_memory.md R52 to R57): when a local access fails, which bytes a write stores, and what
reads of the written bytes answer. -/

namespace Sys2Proof.Machine

open Sys2Proof

section LocalAccess

variable {e : Endian} {d : Memory} {l : Nat} {n : Width} {k : FailKind}

theorem localRead_of_fail (h : d.checkAccess l n = .fail k) : d.localRead e l n = .fail k := by
  simp only [Memory.localRead, h]

theorem localWrite_of_fail (v : Word) (h : d.checkAccess l n = .fail k) : d.localWrite e l n v = .fail k := by
  simp only [Memory.localWrite, h]

/-- The bytes of `Split`, each where a local write puts it (R54). -/
theorem splitBytes_getElem?_writeBytes {j : Nat} (v : Word) (hd : d.wf = true) (hl : l + n.bytes ≤ d.size)
    (hj : j < n.bytes) :
    (splitBytes e n.bytes v)[j]? = some ((d.writeBytes l (splitBytes e n.bytes v)).readByte (l + j)) := by
  rw [readByte_writeBytes hd (by simpa using hj) (by simpa using hl), List.getElem?_eq_getElem]

/-- A local read inside written bytes answers the value of the written bytes it covers (R53, R54). -/
theorem localRead_writeBytes_within {bs : List Byte} {j : Nat} (hd : d.wf = true) (hl : l + bs.length ≤ d.size)
    (ha : (l + j) % n.bytes = 0) (hj : j + n.bytes ≤ bs.length) :
    (d.writeBytes l bs).localRead e (l + j) n = .ok (assembleBytes e ((bs.drop j).take n.bytes)) := by
  rw [localRead_of_fits ha (by simp only [writeBytes_size]; omega)]
  congr 2
  apply List.ext_getElem?
  intro i
  rw [readBytes_getElem?]
  by_cases hi : i < n.bytes
  · rw [if_pos hi, List.getElem?_take_of_lt hi, List.getElem?_drop, Nat.add_assoc,
      readByte_writeBytes hd (by omega) hl, List.getElem?_eq_getElem]
  · rw [if_neg hi, List.getElem?_take_eq_none (by omega)]

/-- A value that fits the width is read back at the place and width it was written (R56). -/
theorem localRead_writeBytes_same {v : Word} (hd : d.wf = true) (hv : v.toNat < 2 ^ (8 * n.bytes))
    (ha : l % n.bytes = 0) (hl : l + n.bytes ≤ d.size) :
    (d.writeBytes l (splitBytes e n.bytes v)).localRead e l n = .ok v := by
  have h := localRead_writeBytes_within (e := e) (bs := splitBytes e n.bytes v) (j := 0) (n := n) hd (by simpa using hl)
    (by simpa using ha) (by simp)
  rw [List.drop_zero, List.take_of_length_le (by simp), assemble_split_of_lt e hv] at h
  exact h

end LocalAccess

/-- Settles O30: the checks decide, and a write that passes them puts each byte of `Split` in its place and leaves the
others. -/
theorem localWriteStoresExactlyItsBytes : Obligations.LocalWriteStoresExactlyItsBytes := by
  intro e d l n v hd
  refine ⟨fun ha => localWrite_of_fail v (checkAccess_misaligned ha),
    fun ha hb => localWrite_of_fail v (checkAccess_bounds ha hb), fun ha hb => ?_⟩
  have hw := localWrite_of_fits (e := e) v ha hb
  exact ⟨_, hw, fun k hk => splitBytes_getElem?_writeBytes v hd hb hk,
    fun l' hl' => readByte_writeBytes_ne d (by simpa using hl'), writeBytes_size .., writeBytes_base ..,
    writeBytes_fill .., Memory.wf_localWrite hd hw⟩

/-- Settles O31: a read fails by the same checks as a write, and otherwise answers what was written. -/
theorem writeThenReadReturnsTheValue : Obligations.WriteThenReadReturnsTheValue := by
  intro e d l n v hd hv
  exact ⟨fun ha => localRead_of_fail (checkAccess_misaligned ha),
    fun ha hb => localRead_of_fail (checkAccess_bounds ha hb),
    fun ha hb => ⟨_, localWrite_of_fits v ha hb, localRead_writeBytes_same hd hv ha hb⟩⟩

/-! ## Narrow reads of a word (R57) -/

/-- Two neighbouring bytes of a word are the half word at their place. -/
theorem extractLsb'_bytes_append (v : Word) (i : Nat) :
    v.extractLsb' (i + 8) 8 ++ v.extractLsb' i 8 = v.extractLsb' i 16 :=
  BitVec.extractLsb'_append_extractLsb'_eq_extractLsb' rfl

/-- The two bytes of a word's image from byte `j` up, as a half word: BIG counts from the top, LITTLE from the bottom. -/
theorem assembleBytes_image_two (v : Word) {j : Nat} (hj : j ≤ 2) :
    assembleBytes .big [imageByte .big v j, imageByte .big v (j + 1)] = (v.extractLsb' (16 - 8 * j) 16).setWidth 32 ∧
    assembleBytes .little [imageByte .little v j, imageByte .little v (j + 1)] =
      (v.extractLsb' (8 * j) 16).setWidth 32 := by
  constructor
  · rw [assembleBytes_big_two, ← extractLsb'_bytes_append, imageByte, imageByte,
      show 24 - 8 * j = 16 - 8 * j + 8 by omega, show 24 - 8 * (j + 1) = 16 - 8 * j by omega]
  · rw [assembleBytes_little_two, ← extractLsb'_bytes_append, imageByte, imageByte, Nat.mul_succ]

section NarrowReads

variable {d : Memory} {l : Nat} (e : Endian) (v : Word) (hd : d.wf = true) (hb : l + 4 ≤ d.size)

include hd hb

/-- A half word at an even place of a stored word reads the two bytes of the image there. -/
theorem localRead_half_of_word (ha : l % 4 = 0) {j : Nat} (hj : j = 0 ∨ j = 2) :
    (d.writeBytes l (splitBytes e 4 v)).localRead e (l + j) .half =
      .ok (assembleBytes e [imageByte e v j, imageByte e v (j + 1)]) := by
  rw [localRead_writeBytes_within hd (by simpa using hb) (by simp only [Width.bytes]; omega)
    (by simp only [splitBytes_length, Width.bytes]; omega), splitBytes_word]
  obtain rfl | rfl := hj <;> rfl

/-- The last byte of a stored word reads the last byte of its image. -/
theorem localRead_last_byte_of_word :
    (d.writeBytes l (splitBytes e 4 v)).localRead e (l + 3) .byte = .ok ((imageByte e v 3).setWidth 32) := by
  rw [localRead_writeBytes_within hd (by simpa using hb) (Nat.mod_one _) (by simp [Width.bytes]), splitBytes_word,
    ← assembleBytes_one e]
  rfl

end NarrowReads

/-- Settles O32: narrow reads answer bytes of the word's image, which assemble to the half word or byte at that place. -/
theorem narrowReadsSeeSocOrder : Obligations.NarrowReadsSeeSocOrder := by
  intro d l v hd ha hb
  have hhalf0 := fun e => localRead_half_of_word e v hd hb ha (.inl rfl)
  have hhalf2 := fun e => localRead_half_of_word e v hd hb ha (.inr rfl)
  obtain ⟨hbig0, hlittle0⟩ := assembleBytes_image_two v (j := 0) (by omega)
  obtain ⟨hbig2, hlittle2⟩ := assembleBytes_image_two v (j := 2) (by omega)
  refine ⟨⟨_, localWrite_of_fits v ha hb, ?_, ?_, localRead_last_byte_of_word .big v hd hb⟩,
    ⟨_, localWrite_of_fits v ha hb, ?_, ?_, localRead_last_byte_of_word .little v hd hb⟩⟩
  · exact (hhalf0 .big).trans (congrArg _ hbig0)
  · exact (hhalf2 .big).trans (congrArg _ hbig2)
  · exact (hhalf0 .little).trans (congrArg _ hlittle0)
  · exact (hhalf2 .little).trans (congrArg _ hlittle2)

end Sys2Proof.Machine
end

section
/-! PROOFS. The Bus (20_memory.md R43 to R51, R62): the host's requests, first-match routing, and what
a routed access answers and changes. -/

namespace Sys2Proof.Machine

open Sys2Proof

/-! ## Requests of the host (R43) -/

section Request

variable {s : State} {a d : Word}

theorem request_read_ok {v : Word} (h : s.memRead a = .ok v) :
    request .read a d s = { result := .ok (some v), after := s } := by simp only [request, h]

theorem request_read_fail {k : FailKind} (h : s.memRead a = .fail k) :
    request .read a d s = { result := .fail k, after := s } := by simp only [request, h]

theorem request_write_ok {t : State} (h : s.memWrite a d = .ok t) :
    request .write a d s = { result := .ok none, after := t } := by simp only [request, h]

theorem request_write_fail {k : FailKind} (h : s.memWrite a d = .fail k) :
    request .write a d s = { result := .fail k, after := s } := by simp only [request, h]

/-- RESET leaves what `resetAll()` leaves, and succeeds when it does. -/
theorem request_reset (s : State) (a d : Word) :
    (request .reset a d s).after = (resetAll s).after ∧
      ((request .reset a d s).result = .ok none ↔ (resetAll s).result = .ok ()) := by
  simp only [request]
  cases (resetAll s).result <;> simp

end Request

/-- Settles O40: one equation per operation and answer. -/
theorem requestRoutesOrResets : Obligations.RequestRoutesOrResets := fun s a d =>
  ⟨fun _ => request_read_ok, fun _ => request_read_fail, fun _ => request_write_ok, fun _ => request_write_fail,
    request_reset s a d⟩

/-! ## Routing -/

section Routing

variable {s : State} {a v : Word} {dev : Device} {before rest : List DeviceContext} {c : DeviceContext}

theorem memRead_of_routesTo (h : RoutesTo s a dev) : s.memRead a = s.devRead dev a := by
  simp only [State.memRead, route_eq_some_iff.mpr h]

theorem memWrite_of_routesTo (h : RoutesTo s a dev) : s.memWrite a v = s.devWrite dev a v := by
  simp only [State.memWrite, route_eq_some_iff.mpr h]

theorem memRead_of_unrouted (h : Unrouted s a) : s.memRead a = .fail .routing := memRead_of_fails (.routing h)

theorem memWrite_of_unrouted (h : Unrouted s a) : s.memWrite a v = .fail .routing := memWrite_of_fails v (.routing h)

/-- An address no context holds, or one that a first context holds (R44). -/
theorem unrouted_or_routesTo (s : State) (a : Word) : Unrouted s a ∨ ∃ dev, RoutesTo s a dev := by
  cases h : s.route a with
  | none => exact .inl (route_eq_none_iff.mp h)
  | some dev => exact .inr ⟨dev, route_eq_some_iff.mp h⟩

/-- Only the contexts around one that does not hold the address matter for it to be unrouted. -/
theorem unrouted_of_not_holds (hreg : s.registry = before ++ c :: rest) (hc : ¬ HoldsAddr c a)
    (ho : ∀ b ∈ before ++ rest, ¬ HoldsAddr b a) : Unrouted s a := by
  intro b hb
  rw [hreg, List.mem_append, List.mem_cons] at hb
  obtain hb | rfl | hb := hb
  · exact ho b (List.mem_append_left _ hb)
  · exact hc
  · exact ho b (List.mem_append_right _ hb)

/-- The registry routes as it does without a context that does not hold the address. -/
theorem route_without_context (hreg : s.registry = before ++ c :: rest) (hc : ¬ HoldsAddr c a) :
    s.route a = ({ s with registry := before ++ rest } : State).route a := by
  have hf : DeviceContext.holds c a = false := by rwa [Bool.eq_false_iff, Ne, holds_iff]
  simp only [State.route, hreg, List.find?_append, List.find?_cons, hf]

end Routing

/-- Settles O33: `route` answers exactly the first context that holds the address. -/
theorem firstMatchingContextIsRouted : Obligations.FirstMatchingContextIsRouted := by
  refine ⟨fun s a v dev h => ⟨memRead_of_routesTo h, memWrite_of_routesTo h⟩, fun s a v h => ?_, unrouted_or_routesTo⟩
  have hr := memRead_of_unrouted h
  have hw := memWrite_of_unrouted (v := v) h
  exact ⟨hr, hw, by rw [request_read_fail hr], by rw [request_write_fail hw]⟩

/-! ## Range bounds (R47) -/

section Bounds

variable {c : DeviceContext} {r : AddrRange} {a : Word}

theorem not_holdsAddr_after_stop (hc : c.range = some r) (h : r.stop.toNat + 1 < 2 ^ 32) :
    ¬ HoldsAddr c (r.stop + 1) := by
  rintro ⟨r', hr', -, hstop⟩
  obtain rfl : r = r' := Option.some.inj (hc.symm.trans hr')
  have hsucc : (r.stop + 1).toNat = r.stop.toNat + 1 := BitVec.toNat_add_of_lt h
  omega

/-- Neither an absent (D11) nor an inverted range (D25) holds an address. -/
theorem not_holdsAddr_of_empty (h : c.range = none ∨ ∃ r, c.range = some r ∧ r.stop.toNat < r.start.toNat) :
    ¬ HoldsAddr c a := by
  rintro ⟨r, hr, hstart, hstop⟩
  obtain hnone | ⟨r', hr', hinv⟩ := h
  · simp [hnone] at hr
  · obtain rfl : r = r' := Option.some.inj (hr.symm.trans hr')
    omega

end Bounds

/-- Settles O34: an address in the range is held by the context, the one after it and those of an empty range are not. -/
theorem rangeBoundsAreInclusive : Obligations.RangeBoundsAreInclusive := by
  intro s before c rest a v hreg
  refine ⟨fun r hr hstart hstop hbefore => ?_, fun r hr hlt ho => ?_, fun hempty => ?_⟩
  · have hroutes : RoutesTo s a c.device := ⟨before, c, rest, hreg, hbefore, ⟨r, hr, hstart, hstop⟩, rfl⟩
    exact ⟨route_eq_some_iff.mpr hroutes, memRead_of_routesTo hroutes, memWrite_of_routesTo hroutes⟩
  · have hun := unrouted_of_not_holds hreg (not_holdsAddr_after_stop hr hlt) ho
    exact ⟨memRead_of_unrouted hun, memWrite_of_unrouted hun⟩
  · have hc := not_holdsAddr_of_empty (a := a) hempty
    refine ⟨route_without_context hreg hc, fun ho => ?_⟩
    have hun := unrouted_of_not_holds hreg hc ho
    exact ⟨memRead_of_unrouted hun, memWrite_of_unrouted hun⟩

/-! ## What an access answers -/

/-- In a legal state the registry names no memory device that is not there. -/
theorem State.Inv.mems_of_route {s : State} (h : s.Inv) {a : Word} {m : Nat} (hr : s.route a = some (.memory m)) :
    ∃ d, s.mems[m]? = some d := by
  obtain ⟨before, c, rest, hreg, -, -, hdev⟩ := route_eq_some_iff.mp hr
  have hlt : m < s.mems.length := h.exist c (by simp [hreg]) m hdev
  exact ⟨s.mems[m], List.getElem?_eq_getElem hlt⟩

/-- In a legal state a read fails exactly with the kind R44, R49, R52 and R53 name. -/
theorem memRead_fail_iff {s : State} (hs : s.Inv) {a : Word} {k : FailKind} :
    s.memRead a = .fail k ↔ AccessFails s a k := by
  refine ⟨fun h => ?_, memRead_of_fails⟩
  obtain ⟨rfl, hr⟩ | ⟨rfl, hr⟩ | ⟨m, -, hr, hnone⟩ | ⟨m, d, hr, hd, hc⟩ := memRead_fail h
  · exact .routing (route_eq_none_iff.mp hr)
  · exact .notAccessible (route_eq_some_iff.mp hr)
  · obtain ⟨d, hd⟩ := hs.mems_of_route hr
    simp [hd] at hnone
  · rw [localAddr_eq] at hc
    obtain ⟨rfl, hl⟩ | ⟨rfl, hl, hb⟩ := checkAccess_fail hc
    · exact .misaligned m d (route_eq_some_iff.mp hr) hd hl
    · exact .bounds m d (route_eq_some_iff.mp hr) hd hl hb

theorem memWrite_fail_iff {s : State} (hs : s.Inv) {a v : Word} {k : FailKind} :
    s.memWrite a v = .fail k ↔ AccessFails s a k :=
  memRead_fail_iff_memWrite_fail.symm.trans (memRead_fail_iff hs)

/-- A backed, aligned word is read (R51, R53). -/
theorem memRead_of_wordAt {s : State} {a : Word} {m l : Nat} (h : WordAt s a m l) :
    ∃ v, s.memRead a = .ok v ∧ HoldsWord s m l v := by
  obtain ⟨d, hr, hd, rfl, ha, hb⟩ := wordAt_iff.mp h
  exact ⟨_, memRead_of_fits hr hd ha hb, holdsWord_of_readBytes hd hb⟩

/-- A backed, aligned word is written, and nothing else (R51, R54). -/
theorem memWrite_of_wordAt {s : State} (hs : s.Inv) {a : Word} (v : Word) {m l : Nat} (h : WordAt s a m l) :
    ∃ t, s.memWrite a v = .ok t ∧ HoldsWord t m l v ∧ SameMemoryBut m l 4 s t ∧ SameRegs s t ∧ SameSetup s t := by
  obtain ⟨d, hr, hd, rfl, ha, hb⟩ := wordAt_iff.mp h
  have hw := memWrite_of_fits v hr hd ha hb
  exact ⟨_, hw, holdsWord_setMem hd (hs.mem_wf d (List.mem_of_getElem? hd)) hb v, sameMemoryBut_setMem hd v,
    sameRegs_of_regs (memWrite_regs hw), memWrite_setup hw⟩

/-- Settles O35: a backed word is answered, and in a legal state every failure is one of those of `AccessFails`. -/
theorem busReadAnswersTheWordOrTheKind : Obligations.BusReadAnswersTheWordOrTheKind := fun _ _ hs =>
  ⟨fun _ _ => memRead_of_wordAt, fun _ => memRead_fail_iff hs⟩

/-- Settles O36: a backed word is written alone; a write fails as the read at its address does, and leaves the state. -/
theorem busWriteChangesOneWord : Obligations.BusWriteChangesOneWord := fun _ _ v hs =>
  ⟨fun _ _ => memWrite_of_wordAt hs v, fun _ => memWrite_fail_iff hs,
    fun _ h => request_write_fail (memWrite_of_fails v h)⟩

/-! ## Reads after a write (R62) -/

theorem localAddr_writeBytes (d : Memory) (l : Nat) (bs : List Byte) (a : Word) :
    (d.writeBytes l bs).localAddr a = d.localAddr a := by
  simp only [Memory.localAddr, writeBytes_base]

theorem localAddr_eq_iff {d : Memory} {a b : Word} : d.localAddr b = d.localAddr a ↔ b = a :=
  ⟨localAddr_inj, fun h => h ▸ rfl⟩

/-- A device reads as before once another one has been replaced. -/
theorem devRead_setMem_ne {s : State} {m : Nat} {dev : Device} (d : Memory) (h : dev ≠ .memory m) (b : Word) :
    (s.setMem m d).devRead dev b = s.devRead dev b := by
  cases dev with
  | cpu => rfl
  | memory m' =>
    have hne : m ≠ m' := fun heq => h (heq ▸ rfl)
    simp only [State.devRead, setMem_mems, List.getElem?_set_ne hne, setMem_soc]

/-- The device written to reads the new word at its address and every other word as before. -/
theorem devRead_setMem_same {s : State} {m : Nat} {d : Memory} {a : Word} (hd : s.mems[m]? = some d)
    (hw : d.wf = true) (ha : d.localAddr a % 4 = 0) (hb : d.localAddr a + 4 ≤ d.size) (v b : Word) :
    (s.setMem m (d.writeBytes (d.localAddr a) (splitBytes s.soc.endian 4 v))).devRead (.memory m) b =
      if b = a then .ok v else s.devRead (.memory m) b := by
  simp only [State.devRead, setMem_mems, List.getElem?_set_self (mems_lt hd), setMem_soc, hd, localAddr_writeBytes,
    localRead_writeBytes_word hw v ha hb, localAddr_eq_iff]

/-- What every address reads after a completed write: the value at its own address, the old answer elsewhere. -/
theorem memRead_after_memWrite {s t : State} {a v : Word} (hs : s.Inv) (h : s.memWrite a v = .ok t) (b : Word) :
    t.memRead b = if b = a then .ok v else s.memRead b := by
  obtain ⟨m, d, hr, hd, ha, hb, rfl⟩ := memWrite_ok h
  have hsame := devRead_setMem_same hd (hs.mem_wf d (List.mem_of_getElem? hd)) ha hb v b
  simp only [State.memRead, route_congr (setMem_registry s m _)]
  by_cases hm : s.route b = some (.memory m)
  · simp only [hm, hsame]
  · have hba : b ≠ a := fun heq => hm (heq ▸ hr)
    rw [if_neg hba]
    cases hdev : s.route b with
    | none => rfl
    | some dev => exact devRead_setMem_ne _ (fun heq => hm (heq ▸ hdev)) b

/-- Settles O37: the read after a write, at the address written and at any other. -/
theorem readsSeeTheMostRecentWrite : Obligations.ReadsSeeTheMostRecentWrite := by
  intro s t a v hs h
  refine ⟨?_, fun b hb => ?_⟩
  · rw [memRead_after_memWrite hs h, if_pos rfl]
  · rw [memRead_after_memWrite hs h, if_neg hb]

end Sys2Proof.Machine
end

section
/-! PROOFS. Memory as the instructions see it (10_state.md section 1, 20_memory.md R65): which of them write it, and that
the next fetch sees a store. -/

namespace Sys2Proof.Machine

open Sys2Proof

/-- An instruction that completes and is neither STORE nor PUSH leaves the memory devices as they are. -/
theorem exec_next_mems {i : Instr} {s t : State} (hstore : ∀ r1 r2 offset, i ≠ .store r1 r2 offset)
    (hpush : ∀ r1, i ≠ .push r1) (h : exec i s = .next t) : t.mems = s.mems := by
  cases i with
  | loadli r imm16 =>
    obtain ⟨-, rfl⟩ := exec_loadli_next h
    rfl
  | loadhi r imm16 =>
    obtain ⟨-, rfl⟩ := exec_loadhi_next h
    rfl
  | add r1 r2 r3 =>
    obtain ⟨-, rfl⟩ := exec_add_next h
    rfl
  | sub r1 r2 r3 =>
    obtain ⟨-, rfl⟩ := exec_sub_next h
    rfl
  | store r1 r2 offset => exact absurd rfl (hstore r1 r2 offset)
  | load r1 r2 offset =>
    obtain ⟨-, v, -, rfl⟩ := exec_load_next h
    rfl
  | push r1 => exact absurd rfl (hpush r1)
  | pop r1 =>
    obtain ⟨-, v, -, rfl⟩ := exec_pop_next h
    rfl

/-- What a failing instruction leaves: the state as it stood, or, for PUSH, SP decremented (R163). -/
theorem exec_fault_after {i : Instr} {s t : State} {k : FailKind} {a : Word} (h : exec i s = .fault (.execute k a t)) :
    t = s ∨ ((∃ r1, i = .push r1) ∧ t = decrementSp s) := by
  obtain ⟨-, hf⟩ | ⟨-, hstore | hload | hpush | hpop⟩ := exec_fault_cases h
  · exact .inl (Fault.execute.inj hf).2.2
  · obtain ⟨r1, r2, offset, k', -, -, hf⟩ := hstore
    exact .inl (Fault.execute.inj hf).2.2
  · obtain ⟨r1, r2, offset, k', -, -, hf⟩ := hload
    exact .inl (Fault.execute.inj hf).2.2
  · obtain ⟨r1, k', hi, -, hf⟩ := hpush
    exact .inr ⟨⟨r1, hi⟩, (Fault.execute.inj hf).2.2⟩
  · obtain ⟨r1, k', -, -, hf⟩ := hpop
    exact .inl (Fault.execute.inj hf).2.2

/-- Settles O15: the other six instructions write registers alone, and a failing one at most SP. -/
theorem onlyStoreAndPushWriteMemory : Obligations.OnlyStoreAndPushWriteMemory := by
  refine ⟨fun i s t hstore hpush h => sameMemory_of_mems (exec_next_mems hstore hpush h), fun i s k a t h => ?_⟩
  obtain rfl | ⟨-, rfl⟩ := exec_fault_after h
  · exact sameMemory_of_mems rfl
  · exact sameMemory_of_mems rfl

/-- A completed write at PC is what the next fetch reads (R65). -/
theorem fetch_after_memWrite {s t : State} {a v : Word} (hs : s.Inv) (h : s.memWrite a v = .ok t) (hpc : t.pc = a) :
    t.fetch = .ok v := by
  rw [State.fetch, hpc, memRead_after_memWrite hs h, if_pos rfl]

/-- Settles O21: both instructions complete by a Bus write, PUSH's from the state with SP decremented, which it leaves
with its registers. -/
theorem storesAreSeenByFetch : Obligations.StoresAreSeenByFetch := by
  refine ⟨fun s t r1 r2 offset hs h hpc => fetch_after_memWrite hs (exec_store_next h) hpc, fun s t r1 hs h hpc => ?_⟩
  obtain ⟨-, hw⟩ := exec_push_next h
  have hregs := memWrite_regs hw
  have hsp : t.sp = (decrementSp s).sp := by simp only [State.sp, State.spi, State.nRegs, State.readReg, hregs]
  have hr1 : t.readReg r1.toNat = (decrementSp s).readReg r1.toNat := by simp only [State.readReg, hregs]
  rw [hr1]
  exact fetch_after_memWrite (hs.writeReg ..) hw (hpc.trans hsp)

end Sys2Proof.Machine
end

section
/-! PROOFS. The direct memory port (20_memory.md R58): it passes the device's own checks and reaches the device's bytes,
whatever the Bus holds. -/

namespace Sys2Proof.Machine

open Sys2Proof

theorem byteAt_of_mems_getElem? {s : State} {m : Nat} {d : Memory} (hd : s.mems[m]? = some d) (l : Nat) :
    s.byteAt m l = if l < d.size then some (d.readByte l) else none := by
  simp only [State.byteAt, hd]

/-- Bytes written to one device leave every other byte of the memory alone. -/
theorem sameMemoryBut_writeBytes {s : State} {m : Nat} {d : Memory} (hd : s.mems[m]? = some d) (l : Nat)
    (bs : List Byte) : SameMemoryBut m l bs.length s (s.setMem m (d.writeBytes l bs)) := by
  intro m' l' h
  by_cases hm : m' = m
  · subst hm
    rw [setMem_byteAt_same hd (writeBytes_size ..), byteAt_of_mems_getElem? hd, readByte_writeBytes_ne d (by omega)]
  · exact setMem_byteAt_ne _ hm l'

section DirectPort

variable {s : State} {m l : Nat} {n : Width} {d : Memory}

/-- A direct read answers a value of the width whose bytes are those of the device (R53, R58). -/
theorem directRead_of_fits (hd : s.mems[m]? = some d) (ha : l % n.bytes = 0) (hb : l + n.bytes ≤ d.size) :
    ∃ u, directRead m l n s = .ok u ∧ u.toNat < 2 ^ (8 * n.bytes) ∧
      ∀ k, k < n.bytes → (splitBytes s.soc.endian n.bytes u)[k]? = s.byteAt m (l + k) := by
  refine ⟨_, (directRead_eq hd).trans (localRead_of_fits ha hb), ?_, fun k hk => ?_⟩
  · have hlt := assembleBytes_lt s.soc.endian (d.readBytes l n.bytes)
    rwa [readBytes_length, ← Nat.pow_mul 2 8] at hlt
  · have hwidth : n.bytes ≤ 4 := by cases n <;> decide
    have hsplit := split_assemble s.soc.endian (d.readBytes l n.bytes) (by simpa using hwidth)
    rw [readBytes_length] at hsplit
    rw [hsplit, readBytes_getElem?, if_pos hk, byteAt_of_mems_getElem? hd, if_pos (by omega)]

/-- Each byte of a directly written value lies at its place afterwards (R54, R58). -/
theorem directWrite_byteAt (hw : d.wf = true) (hd : s.mems[m]? = some d) (ha : l % n.bytes = 0)
    (hb : l + n.bytes ≤ d.size) (v : Word) {k : Nat} (hk : k < n.bytes) :
    (splitBytes s.soc.endian n.bytes v)[k]? = (directWrite m l n v s).after.byteAt m (l + k) := by
  rw [directWrite_of_fits v hd ha hb, splitBytes_getElem?_writeBytes v hw hb hk,
    setMem_byteAt_same hd (writeBytes_size ..), if_pos (by omega)]

/-- A directly written value that fits the width is read back (R56, R58). -/
theorem directRead_after_directWrite (hw : d.wf = true) (hd : s.mems[m]? = some d) (ha : l % n.bytes = 0)
    (hb : l + n.bytes ≤ d.size) {v : Word} (hv : v.toNat < 2 ^ (8 * n.bytes)) :
    directRead m l n (directWrite m l n v s).after = .ok v := by
  rw [directWrite_of_fits v hd ha hb, directRead_eq (List.getElem?_set_self (mems_lt hd))]
  exact localRead_writeBytes_same hw hv ha hb

/-- What a direct write leaves alone: the other bytes, the registers and the setup. -/
theorem directWrite_frame (hd : s.mems[m]? = some d) (ha : l % n.bytes = 0) (hb : l + n.bytes ≤ d.size) (v : Word) :
    SameMemoryBut m l n.bytes s (directWrite m l n v s).after ∧ SameRegs s (directWrite m l n v s).after ∧
      SameSetup s (directWrite m l n v s).after := by
  have hbut := sameMemoryBut_writeBytes hd l (splitBytes s.soc.endian n.bytes v)
  rw [splitBytes_length] at hbut
  rw [directWrite_of_fits v hd ha hb]
  exact ⟨hbut, sameRegs_of_regs rfl,
    sameSetup_setMem hd (writeBytes_size ..) (writeBytes_base ..) (writeBytes_fill ..)⟩

/-- `writeWord` leaves the word's image (R58). -/
theorem writeWord_holdsWord (hw : d.wf = true) (hd : s.mems[m]? = some d) (ha : l % 4 = 0) (hb : l + 4 ≤ d.size)
    (v : Word) : HoldsWord (writeWord m l v s).after m l v := by
  rw [writeWord, directWrite_of_fits (n := .word) v hd ha hb]
  exact holdsWord_setMem hd hw hb v

/-- The raw view lists the device's bytes, and nothing beyond its size (R29). -/
theorem rawBytes_byteAt (hd : s.mems[m]? = some d) :
    ∃ bs, rawBytes m s = some bs ∧ ∀ l', s.byteAt m l' = bs[l']? := by
  refine ⟨_, rawBytes_eq_some hd, fun l' => ?_⟩
  rw [readBytes_getElem?, Nat.zero_add, byteAt_of_mems_getElem? hd]

end DirectPort

/-- Settles O41: the device's checks decide, `writeWord` is the port at width 4, and the raw view is the bytes. -/
theorem directPortBypassesTheBus : Obligations.DirectPortBypassesTheBus := by
  intro s m l n v d hs hd
  have hw := hs.mem_wf d (List.mem_of_getElem? hd)
  refine ⟨fun ha => ?_, fun ha hb => ?_, fun ha hb => ?_,
    fun ha => directWrite_of_fail v hd (checkAccess_misaligned (n := .word) ha),
    fun ha hb => directWrite_of_fail v hd (checkAccess_bounds (n := .word) ha hb), fun ha hb => ?_, rawBytes_byteAt hd⟩
  · have hc := checkAccess_misaligned (d := d) ha
    exact ⟨directRead_of_fail hd hc, directWrite_of_fail v hd hc⟩
  · have hc := checkAccess_bounds ha hb
    exact ⟨directRead_of_fail hd hc, directWrite_of_fail v hd hc⟩
  · exact ⟨directRead_of_fits hd ha hb, by rw [directWrite_of_fits v hd ha hb],
      fun k hk => directWrite_byteAt hw hd ha hb v hk, fun hv => directRead_after_directWrite hw hd ha hb hv,
      directWrite_frame hd ha hb v⟩
  · exact ⟨by rw [writeWord, directWrite_of_fits (n := .word) v hd ha hb], writeWord_holdsWord hw hd ha hb v,
      directWrite_frame (n := .word) hd ha hb v⟩

end Sys2Proof.Machine
end

section
/-! PROOFS. The host's operations (20_memory.md R41 to R43): what they do to the registry, and that they keep a legal
state legal. -/

namespace Sys2Proof.Machine

open Sys2Proof

/-! ## The registry -/

theorem attached_iff {s : State} {dev : Device} : s.attached dev = true ↔ ∃ c ∈ s.registry, c.device = dev := by
  simp only [State.attached, List.any_eq_true, decide_eq_true_eq]

theorem attached_eq_false_iff {s : State} {dev : Device} :
    s.attached dev = false ↔ ∀ c ∈ s.registry, c.device ≠ dev := by
  simp only [State.attached, List.any_eq_false, decide_eq_true_eq, ne_eq]

section Registry

variable {s : State} {dev : Device}

theorem attach_of_attached (role : Role) (range : Option AddrRange) (h : s.attached dev = true) :
    attach role dev range s = { result := .fail .attachDuplicate, after := s } := if_pos h

theorem attach_of_not_attached (role : Role) (range : Option AddrRange) (h : s.attached dev = false) :
    attach role dev range s =
      { result := .ok (),
        after := { s with registry := s.registry ++ [{ role := role, device := dev, range := range }] } } := by
  simp only [attach, h, Bool.false_eq_true, if_false]

theorem detach_of_attached (h : s.attached dev = true) :
    detach dev s =
      { result := .ok (),
        after := { s with registry := s.registry.eraseP (fun c => decide (c.device = dev)) } } := if_pos h

theorem detach_of_not_attached (h : s.attached dev = false) :
    detach dev s = { result := .fail .detachNotFound, after := s } := by
  simp only [detach, h, Bool.false_eq_true, if_false]

end Registry

theorem addressable_iff {c : DeviceContext} : c.addressable = true ↔ ∃ r, c.range = some r :=
  Option.isSome_iff_exists

/-- Erasing the first context of a device takes out that one (R42). -/
theorem eraseP_first_context {before : List DeviceContext} {c : DeviceContext} (rest : List DeviceContext)
    (hb : ∀ b ∈ before, b.device ≠ c.device) :
    (before ++ c :: rest).eraseP (fun x => decide (x.device = c.device)) = before ++ rest := by
  rw [List.eraseP_append_right _ fun b hm => by simpa using hb b hm, List.eraseP_cons_of_pos (by simp)]

/-- Settles O38: the check by identity decides between the failure and the appended context. -/
theorem attachAppendsOnce : Obligations.AttachAppendsOnce := by
  intro s role dev range
  refine ⟨fun h => attach_of_attached role range (attached_iff.mpr h), fun h => ?_⟩
  rw [attach_of_not_attached role range (attached_eq_false_iff.mpr h)]
  exact ⟨rfl, ⟨_, rfl, rfl, rfl, addressable_iff, rfl⟩, sameRegs_of_regs rfl, sameMemory_of_mems rfl, rfl⟩

/-- Settles O39: the check by identity decides between the failure and the erasure of the first context. -/
theorem detachRemovesTheFirst : Obligations.DetachRemovesTheFirst := by
  intro s dev
  refine ⟨fun before c rest hreg hb hdev => ?_, fun h => detach_of_not_attached (attached_eq_false_iff.mpr h)⟩
  subst hdev
  rw [detach_of_attached (attached_iff.mpr ⟨c, by simp [hreg], rfl⟩)]
  exact ⟨rfl, by rw [hreg, eraseP_first_context rest hb], sameRegs_of_regs rfl, sameMemory_of_mems rfl, rfl⟩

/-! ## Legal states stay legal -/

/-- A legal state with another legal registry is legal. -/
theorem State.Inv.withRegistry {s : State} (h : s.Inv) {cs : List DeviceContext} (hnodup : (cs.map (·.device)).Nodup)
    (hexist : ∀ c ∈ cs, ∀ m, c.device = .memory m → m < s.mems.length) : ({ s with registry := cs } : State).Inv :=
  { regs_low := h.regs_low, regs_high := h.regs_high, sentinel := h.sentinel, opcodes := h.opcodes, mem_wf := h.mem_wf,
    mem_size := h.mem_size, registered := hnodup, exist := hexist }

theorem State.Inv.attach {s : State} (h : s.Inv) (role : Role) {dev : Device} (range : Option AddrRange)
    (hdev : ∀ m, dev = .memory m → m < s.mems.length) : (attach role dev range s).after.Inv := by
  cases hatt : s.attached dev with
  | true => rwa [attach_of_attached role range hatt]
  | false =>
    rw [attach_of_not_attached role range hatt]
    refine h.withRegistry ?_ fun c hc => ?_
    · rw [List.map_append, List.map_singleton, List.nodup_append_comm, List.singleton_append, List.nodup_cons]
      refine ⟨fun hmem => ?_, h.registered⟩
      obtain ⟨c, hc, hcd⟩ := List.mem_map.mp hmem
      exact attached_eq_false_iff.mp hatt c hc hcd
    · obtain hc | hc := List.mem_append.mp hc
      · exact h.exist c hc
      · rwa [List.mem_singleton.mp hc]

theorem State.Inv.detach {s : State} (h : s.Inv) (dev : Device) : (detach dev s).after.Inv := by
  cases hatt : s.attached dev with
  | true =>
    rw [detach_of_attached hatt]
    have hsub := List.eraseP_sublist (p := fun c : DeviceContext => decide (c.device = dev)) (l := s.registry)
    exact h.withRegistry (h.registered.sublist (hsub.map _)) fun c hc => h.exist c (hsub.subset hc)
  | false => rwa [detach_of_not_attached hatt]

/-- CPU reset keeps the register count, since a legal state has registers (R190). -/
theorem cpuReset_nRegs {s : State} (h : 1 ≤ s.nRegs) : (cpuReset s).nRegs = s.nRegs := by
  have hlen : (cpuReset s).nRegs = s.nRegs - 1 + 1 := by simp [cpuReset, State.nRegs, resetRegs]
  omega

theorem State.Inv.cpuReset {s : State} (h : s.Inv) : (cpuReset s).Inv := by
  have hlow := h.regs_low
  have hn : (Machine.cpuReset s).nRegs = s.nRegs := cpuReset_nRegs (by omega)
  exact { regs_low := hn ▸ hlow, regs_high := hn ▸ h.regs_high, sentinel := h.sentinel, opcodes := h.opcodes,
          mem_wf := h.mem_wf, mem_size := h.mem_size, registered := h.registered, exist := h.exist }

/-- A device's reset that succeeds keeps the state legal (R190, R191). -/
theorem State.Inv.devReset {s t : State} (hs : s.Inv) {dev : Device} (h : devReset dev s = .ok t) : t.Inv := by
  unfold Machine.devReset at h
  split at h
  · obtain rfl := Result.ok.inj h
    exact hs.cpuReset
  · split at h
    · simp at h
    · rename_i m d hd
      obtain rfl := Result.ok.inj h
      exact hs.setMem hd rfl (Memory.wf_reset d)

theorem State.Inv.resetContexts {s : State} (hs : s.Inv) (cs : List DeviceContext) :
    (resetContexts cs s).after.Inv := by
  induction cs generalizing s with
  | nil => exact hs
  | cons c cs ih =>
    rw [Machine.resetContexts]
    split
    · exact hs
    · exact ih (hs.devReset ‹_›)

theorem State.Inv.resetAll {s : State} (hs : s.Inv) : (resetAll s).after.Inv := hs.resetContexts s.registry

theorem State.Inv.request {s : State} (hs : s.Inv) (op : BusOp) (a d : Word) : (request op a d s).after.Inv := by
  cases op with
  | read =>
    cases h : s.memRead a with
    | ok v => rwa [request_read_ok h]
    | fail k => rwa [request_read_fail h]
  | write =>
    cases h : s.memWrite a d with
    | ok t =>
      rw [request_write_ok h]
      exact memWrite_keeps hs h
    | fail k => rwa [request_write_fail h]
  | reset =>
    rw [(request_reset s a d).1]
    exact hs.resetAll

theorem State.Inv.directWrite {s : State} (hs : s.Inv) (m l : Nat) (n : Width) (v : Word) :
    (directWrite m l n v s).after.Inv := by
  unfold Machine.directWrite
  split
  · exact hs
  · rename_i d hd
    split
    · exact hs
    · rename_i d' hw
      exact hs.setMem hd (localWrite_size hw) (Memory.wf_localWrite (hs.mem_wf d (List.mem_of_getElem? hd)) hw)

/-- Settles O43: one lemma per operation. -/
theorem hostOperationsKeepTheInvariant : Obligations.HostOperationsKeepTheInvariant := fun _ hs =>
  ⟨fun role _ range hdev => hs.attach role range hdev, hs.detach, hs.request, hs.directWrite, hs.resetAll⟩

end Sys2Proof.Machine
end

section
/-! PROOFS. Roles (20_memory.md R40): giving every context one role commutes with each operation of the cycle and with
reset, because none of them reads a role. -/

namespace Sys2Proof.Machine

open Sys2Proof

/-- A result with its state mapped. -/
def Result.map {α β : Type} (f : α → β) : Result α → Result β
  | .ok v => .ok (f v)
  | .fail k => .fail k

section Roles

variable (r : Role) (s : State)

@[simp] theorem withRole_soc : (s.withRole r).soc = s.soc := rfl
@[simp] theorem withRole_mems : (s.withRole r).mems = s.mems := rfl
@[simp] theorem withRole_readReg (i : Nat) : (s.withRole r).readReg i = s.readReg i := rfl
@[simp] theorem withRole_pc : (s.withRole r).pc = s.pc := rfl
@[simp] theorem withRole_sp : (s.withRole r).sp = s.sp := rfl

@[simp] theorem withRole_writeReg (i : Nat) (v : Word) :
    (s.withRole r).writeReg i v = (s.writeReg i v).withRole r := rfl
@[simp] theorem withRole_setMem (m : Nat) (d : Memory) : (s.withRole r).setMem m d = (s.setMem m d).withRole r := rfl
@[simp] theorem withRole_decrementSp : decrementSp (s.withRole r) = (decrementSp s).withRole r := rfl
@[simp] theorem withRole_incrementSp : incrementSp (s.withRole r) = (incrementSp s).withRole r := rfl

/-! ## The Bus -/

/-- Routing looks at the ranges and answers a device: no role. -/
@[simp] theorem withRole_route (a : Word) : (s.withRole r).route a = s.route a := by
  simp only [State.route, State.withRole, List.find?_map, Option.map_map]
  rfl

@[simp] theorem withRole_memRead (a : Word) : (s.withRole r).memRead a = s.memRead a := by
  simp only [State.memRead, withRole_route]
  rfl

theorem withRole_devWrite (dev : Device) (a v : Word) :
    (s.withRole r).devWrite dev a v = (s.devWrite dev a v).map (State.withRole r) := by
  cases dev with
  | cpu => rfl
  | memory m =>
    simp only [State.devWrite, withRole_mems, withRole_soc]
    cases s.mems[m]? with
    | none => rfl
    | some d =>
      cases hw : d.localWrite s.soc.endian (d.localAddr a) .word v with
      | fail k => simp only [hw, Result.map]
      | ok d' => simp only [hw, Result.map, withRole_setMem]

theorem withRole_memWrite (a v : Word) : (s.withRole r).memWrite a v = (s.memWrite a v).map (State.withRole r) := by
  simp only [State.memWrite, withRole_route]
  cases s.route a with
  | none => rfl
  | some dev => exact withRole_devWrite r s dev a v

/-! ## The cycle -/

theorem withRole_validated (rs : List RegIndex) (effect : Out) :
    validated rs (s.withRole r) (mapOut (State.withRole r) effect) = mapOut (State.withRole r) (validated rs s effect) := by
  obtain ⟨hv, he⟩ | ⟨⟨i, hi, hn⟩, he⟩ := validated_cases (rs := rs) (s := s) (effect := effect) rfl
  · rw [he]
    exact validated_of_valid (s := s.withRole r) hv _
  · rw [he]
    exact validated_of_invalid (s := s.withRole r) hi hn _

theorem withRole_validated_next (rs : List RegIndex) (t : State) :
    validated rs (s.withRole r) (.next (t.withRole r)) = mapOut (State.withRole r) (validated rs s (.next t)) :=
  withRole_validated r s rs (.next t)

theorem withRole_storeWord (ea v : Word) :
    storeWord ea v (s.withRole r) = mapOut (State.withRole r) (storeWord ea v s) := by
  simp only [storeWord, withRole_memWrite]
  cases s.memWrite ea v <;> rfl

theorem withRole_loadWord (ea : Word) (i : RegIndex) {f : State → State}
    (hf : ∀ t : State, f (t.withRole r) = (f t).withRole r) :
    loadWord ea i (s.withRole r) f = mapOut (State.withRole r) (loadWord ea i s f) := by
  simp only [loadWord, withRole_memRead]
  cases s.memRead ea with
  | fail k => rfl
  | ok v => simp only [withRole_writeReg, hf, mapOut]

theorem withRole_exec (i : Instr) : exec i (s.withRole r) = mapOut (State.withRole r) (exec i s) := by
  cases i with
  | loadli i imm16 =>
    simp only [exec, execLoadli, withRole_readReg, withRole_writeReg, withRole_validated_next]
  | loadhi i imm16 =>
    simp only [exec, execLoadhi, withRole_readReg, withRole_writeReg, withRole_validated_next]
  | add r1 r2 r3 =>
    simp only [exec, execAdd, withRole_readReg, withRole_writeReg, withRole_validated_next]
  | sub r1 r2 r3 =>
    simp only [exec, execSub, withRole_readReg, withRole_writeReg, withRole_validated_next]
  | store r1 r2 offset =>
    simp only [exec, execStore, withRole_readReg, withRole_storeWord, withRole_validated]
  | load r1 r2 offset =>
    simp only [exec, execLoad, withRole_readReg, withRole_loadWord r s _ _ (f := id) fun _ => rfl, withRole_validated]
  | push r1 =>
    simp only [exec, execPush, pushStore, withRole_decrementSp, withRole_sp, withRole_readReg, withRole_storeWord,
      withRole_validated]
  | pop r1 =>
    simp only [exec, execPop, withRole_sp, withRole_loadWord r s _ _ (withRole_incrementSp r), withRole_validated]

theorem withRole_runWord (w : Word) : runWord w (s.withRole r) = mapOut (State.withRole r) (runWord w s) := by
  simp only [runWord, withRole_soc]
  cases decode s.soc.opcodeMap w with
  | error e => rfl
  | ok i => exact withRole_exec r s i

theorem withRole_step : step (s.withRole r) = mapOut (State.withRole r) (step s) := by
  simp only [step, cycle, State.fetch, withRole_pc, withRole_memRead]
  cases s.memRead s.pc with
  | fail k => rfl
  | ok w => exact withRole_runWord r s.advance w

/-! ## Reset -/

theorem withRole_devReset (dev : Device) :
    devReset dev (s.withRole r) = (devReset dev s).map (State.withRole r) := by
  cases dev with
  | cpu => rfl
  | memory m =>
    simp only [devReset, withRole_mems]
    cases s.mems[m]? <;> rfl

/-- The reset of a list of contexts commutes with roles, those of the list and those of the state. -/
theorem withRole_resetContexts (cs : List DeviceContext) :
    resetContexts (cs.map fun c => { c with role := r }) (s.withRole r) =
      { result := (resetContexts cs s).result, after := (resetContexts cs s).after.withRole r } := by
  induction cs generalizing s with
  | nil => rfl
  | cons c cs ih =>
    simp only [List.map_cons, resetContexts, withRole_devReset]
    cases devReset c.device s with
    | fail k => rfl
    | ok t => exact ih t

theorem withRole_resetAll :
    resetAll (s.withRole r) = { result := (resetAll s).result, after := (resetAll s).after.withRole r } :=
  withRole_resetContexts r s s.registry

end Roles

/-- Settles O52: the step and system reset commute with giving every context one role. -/
theorem rolesHaveNoEffect : Obligations.RolesHaveNoEffect := by
  intro s r
  rw [withRole_resetAll]
  exact ⟨withRole_step r s, rfl, rfl⟩

end Sys2Proof.Machine
end

section
/-! PROOFS. Encoding (30_encoding.md R80 to R88): the fields as numbers, the decoder through the opcode byte alone, and
that it undoes the encoder. -/

namespace Sys2Proof

/-! ## The fields of a word as numbers (R81) -/

section Fields

variable (w : Word)

theorem opcodeField_eq : opcodeField w = BitVec.ofNat 8 (w.toNat / 2 ^ 24) := by
  rw [opcodeField, BitVec.extractLsb', Nat.shiftRight_eq_div_pow]

theorem r1Field_eq : r1Field w = BitVec.ofNat 8 (w.toNat / 2 ^ 16) := by
  rw [r1Field, BitVec.extractLsb', Nat.shiftRight_eq_div_pow]

theorem r2Field_eq : r2Field w = BitVec.ofNat 8 (w.toNat / 2 ^ 8) := by
  rw [r2Field, BitVec.extractLsb', Nat.shiftRight_eq_div_pow]

theorem r3Field_eq : r3Field w = BitVec.ofNat 8 w.toNat := by
  rw [r3Field, BitVec.extractLsb', Nat.shiftRight_zero]

theorem imm16Field_eq : imm16Field w = BitVec.ofNat 16 w.toNat := by
  rw [imm16Field, BitVec.extractLsb', Nat.shiftRight_zero]

theorem offsetField_eq_r3Field : offsetField w = r3Field w := rfl

theorem opcodeField_toNat : (opcodeField w).toNat = w.toNat / 2 ^ 24 := by
  have hw := w.isLt
  rw [opcodeField_eq, BitVec.toNat_ofNat]
  omega

theorem opcodeField_eq_iff {w : Word} {c : Byte} : opcodeField w = c ↔ w.toNat / 2 ^ 24 = c.toNat := by
  rw [← opcodeField_toNat, BitVec.toNat_inj]

theorem format1_toNat (op : Byte) (r : RegIndex) (imm : Imm16) :
    (op ++ r ++ imm).toNat = (op.toNat * 256 + r.toNat) * 65536 + imm.toNat := by
  rw [BitVec.toNat_append, ← Nat.shiftLeft_add_eq_or_of_lt imm.isLt, Nat.shiftLeft_eq, toNat_append_byte]

/-- The high half of a word is its opcode and Format 1's register field. -/
theorem high_half_eq : w.toNat / 65536 = (opcodeField w).toNat * 256 + (r1Field w).toNat := by
  have himm := (imm16Field w).isLt
  have hw := format1_toNat (opcodeField w) (r1Field w) (imm16Field w)
  rw [format1_eta] at hw
  omega

/-- Words that agree in their high halves agree in the opcode byte and in the register field below it. -/
theorem fields_of_high_half {v w : Word} (h : v.toNat / 65536 = w.toNat / 65536) :
    opcodeField v = opcodeField w ∧ r1Field v = r1Field w := by
  have hdiv : ∀ u : Word, u.toNat / 2 ^ 24 = u.toNat / 65536 / 256 := fun u => by omega
  constructor
  · rw [opcodeField_eq, opcodeField_eq, hdiv v, hdiv w, h]
  · rw [r1Field_eq, r1Field_eq]
    exact congrArg (BitVec.ofNat 8) h

end Fields

/-! ## The decoder through the opcode byte (R85) -/

/-- The instruction of the same mnemonic with the word's fields as its operands (R81). -/
def Instr.withFieldsOf (w : Word) : Instr → Instr
  | .loadli _ _  => .loadli (r1Field w) (imm16Field w)
  | .loadhi _ _  => .loadhi (r1Field w) (imm16Field w)
  | .add _ _ _   => .add (r1Field w) (r2Field w) (r3Field w)
  | .sub _ _ _   => .sub (r1Field w) (r2Field w) (r3Field w)
  | .store _ _ _ => .store (r1Field w) (r2Field w) (offsetField w)
  | .load _ _ _  => .load (r1Field w) (r2Field w) (offsetField w)
  | .push _      => .push (r1Field w)
  | .pop _       => .pop (r1Field w)

section Decode

variable {m : OpcodeMap} {v w : Word} {i : Instr}

/-- Under an injective map the opcode byte decides the mnemonic, and the fields are the word's (R84, R85). -/
theorem decode_of_opcode (hm : m.wf = true) (h : opcodeField w = i.opcode m) : decode m w = .ok (i.withFieldsOf w) := by
  have hdistinct := List.nodup_reverse.mpr (OpcodeMap.wf_iff.mp hm)
  simp only [OpcodeMap.codes, List.reverse_cons, List.reverse_nil, List.nil_append, List.cons_append, List.nodup_cons,
    List.mem_cons, List.not_mem_nil, or_false, not_or] at hdistinct
  cases i
  all_goals
    simp only [Instr.opcode] at h
    simp [decode, Instr.withFieldsOf, h, hdistinct]

/-- What decodes has the fields of the word it was decoded from. -/
theorem withFieldsOf_of_decode (h : decode m w = .ok i) : i.withFieldsOf w = i := by
  obtain ⟨-, rfl⟩ | ⟨-, rfl⟩ | ⟨-, rfl⟩ | ⟨-, rfl⟩ | ⟨-, rfl⟩ | ⟨-, rfl⟩ | ⟨-, rfl⟩ | ⟨-, rfl⟩ := decode_ok_cases h
  all_goals rfl

/-- Whatever the map, words with one opcode byte decode to one mnemonic, each with its own fields. -/
theorem decode_of_same_opcode (hop : opcodeField v = opcodeField w) (h : decode m w = .ok i) :
    decode m v = .ok (i.withFieldsOf v) := by
  simp only [decode, hop] at h ⊢
  split_ifs at h ⊢ <;> obtain rfl := Except.ok.inj h <;> rfl

/-- Every byte of the map is some mnemonic's (R84). -/
theorem Instr.exists_opcode {c : Byte} (h : c ∈ m.codes) : ∃ i : Instr, i.opcode m = c := by
  simp only [OpcodeMap.codes, List.mem_cons, List.not_mem_nil, or_false] at h
  obtain rfl | rfl | rfl | rfl | rfl | rfl | rfl | rfl := h
  exacts [⟨.loadli 0 0, rfl⟩, ⟨.loadhi 0 0, rfl⟩, ⟨.add 0 0 0, rfl⟩, ⟨.sub 0 0 0, rfl⟩, ⟨.store 0 0 0, rfl⟩,
    ⟨.load 0 0 0, rfl⟩, ⟨.push 0, rfl⟩, ⟨.pop 0, rfl⟩]

/-- Under an injective map a word is an instruction exactly when its opcode byte is in the map (R85). -/
theorem decode_ok_iff (hm : m.wf = true) : (∃ i, decode m w = .ok i) ↔ opcodeField w ∈ m.codes := by
  constructor
  · rintro ⟨i, h⟩
    exact opcode_of_decode h ▸ Instr.opcode_mem m i
  · intro hmem
    obtain ⟨i, hi⟩ := Instr.exists_opcode hmem
    exact ⟨_, decode_of_opcode hm hi.symm⟩

end Decode

/-- Settles O23: the opcode byte decides, and the fields are the word's bits as numbers. -/
theorem decodeFollowsTheTable : Obligations.DecodeFollowsTheTable := by
  intro m w hm
  have key : ∀ i : Instr, w.toNat / 2 ^ 24 = (i.opcode m).toNat → decode m w = .ok (i.withFieldsOf w) :=
    fun _ h => decode_of_opcode hm (opcodeField_eq_iff.mpr h)
  simp only [← r1Field_eq, ← r2Field_eq, ← r3Field_eq, ← imm16Field_eq, ← opcodeField_eq]
  refine ⟨key (.loadli 0 0), key (.loadhi 0 0), key (.add 0 0 0), key (.sub 0 0 0), key (.store 0 0 0),
    key (.load 0 0 0), key (.push 0), key (.pop 0), fun h => decode_of_unmapped fun hmem => ?_⟩
  exact h _ hmem (opcodeField_eq_iff.mp rfl)

/-- Settles O27: the default map's bytes are those from 1 to 8. -/
theorem eightOpcodesAreLegal : Obligations.EightOpcodesAreLegal := by
  intro w
  have hcodes : ∀ c : Byte, c ∈ OpcodeMap.default.codes ↔ 1 ≤ c.toNat ∧ c.toNat ≤ 8 := by decide
  rw [decode_ok_iff (by decide), hcodes, opcodeField_toNat]

/-! ## Encoding (R86) -/

/-- The canonical word's fields are the instruction's operands. -/
theorem withFieldsOf_encode (m : OpcodeMap) (i : Instr) : i.withFieldsOf (encode m i) = i := by
  cases i with
  | loadli r imm16 => simp only [Instr.withFieldsOf, encode, r1Field_format1, imm16Field_format1]
  | loadhi r imm16 => simp only [Instr.withFieldsOf, encode, r1Field_format1, imm16Field_format1]
  | add r1 r2 r3 => simp only [Instr.withFieldsOf, encode, r1Field_format23, r2Field_format23, r3Field_format23]
  | sub r1 r2 r3 => simp only [Instr.withFieldsOf, encode, r1Field_format23, r2Field_format23, r3Field_format23]
  | store r1 r2 offset =>
    simp only [Instr.withFieldsOf, encode, r1Field_format23, r2Field_format23, offsetField_format23]
  | load r1 r2 offset =>
    simp only [Instr.withFieldsOf, encode, r1Field_format23, r2Field_format23, offsetField_format23]
  | push r1 => simp only [Instr.withFieldsOf, encode, r1Field_format1]
  | pop r1 => simp only [Instr.withFieldsOf, encode, r1Field_format1]

theorem opcodeField_encode (m : OpcodeMap) (i : Instr) : opcodeField (encode m i) = i.opcode m := by
  cases i with
  | loadli r imm16 => exact Laws.OpcodePlace.loadli r imm16 m
  | loadhi r imm16 => exact Laws.OpcodePlace.loadhi r imm16 m
  | add r1 r2 r3 => exact Laws.OpcodePlace.add r1 r2 r3 m
  | sub r1 r2 r3 => exact Laws.OpcodePlace.sub r1 r2 r3 m
  | store r1 r2 offset => exact Laws.OpcodePlace.store r1 r2 offset m
  | load r1 r2 offset => exact Laws.OpcodePlace.load r1 r2 offset m
  | push r1 => exact Laws.OpcodePlace.push r1 m
  | pop r1 => exact Laws.OpcodePlace.pop r1 m

theorem decode_encode {m : OpcodeMap} (hm : m.wf = true) (i : Instr) : decode m (encode m i) = .ok i := by
  rw [decode_of_opcode hm (opcodeField_encode m i), withFieldsOf_encode]

/-- The memory image of a word decodes as the word does, and the bytes after it are left over (R82). -/
theorem decodeBytes_splitBytes (m : OpcodeMap) (e : Endian) (w : Word) (rest : List Byte) :
    decodeBytes m e (splitBytes e 4 w ++ rest) = (decode m w).map (·, rest) := by
  have hw := assemble_split_word e w
  rw [Machine.splitBytes_word] at hw ⊢
  simp only [List.cons_append, List.nil_append, decodeBytes, hw]
  cases decode m w <;> rfl

/-- Settles O24: the canonical word has the instruction's opcode and fields, and its image assembles to it. -/
theorem decodeOfEncodeIsTheInstruction : Obligations.DecodeOfEncodeIsTheInstruction := by
  intro m i hm
  refine ⟨decode_encode hm i, fun e rest => ?_⟩
  rw [decodeBytes_splitBytes, decode_encode hm]
  rfl

/-- A word is the canonical word of what it decodes to, unless that is PUSH or POP. -/
theorem encode_of_decode {m : OpcodeMap} {w : Word} {i : Instr} (h : decode m w = .ok i)
    (hi : ∀ r, i ≠ .push r ∧ i ≠ .pop r) : encode m i = w := by
  obtain ⟨e, rfl⟩ | ⟨e, rfl⟩ | ⟨e, rfl⟩ | ⟨e, rfl⟩ | ⟨e, rfl⟩ | ⟨e, rfl⟩ | ⟨-, rfl⟩ | ⟨-, rfl⟩ := decode_ok_cases h
  · rw [encode, ← e, format1_eta]
  · rw [encode, ← e, format1_eta]
  · rw [encode, ← e, format23_eta]
  · rw [encode, ← e, format23_eta]
  · rw [encode, ← e, offsetField_eq_r3Field, format23_eta]
  · rw [encode, ← e, offsetField_eq_r3Field, format23_eta]
  · exact absurd rfl (hi _).1
  · exact absurd rfl (hi _).2

/-- PUSH and POP: the canonical word is the opcode and the register field, with the low half zero. -/
theorem encode_eq_of_push_or_pop {m : OpcodeMap} {w : Word} {i : Instr} (h : decode m w = .ok i)
    (hi : ∃ r, i = .push r ∨ i = .pop r) : encode m i = opcodeField w ++ r1Field w ++ (0 : BitVec 16) := by
  have hop := opcode_of_decode h
  have hfields := withFieldsOf_of_decode h
  obtain ⟨r, rfl | rfl⟩ := hi
  · obtain rfl : r1Field w = r := Instr.push.inj hfields
    rw [← hop]
    rfl
  · obtain rfl : r1Field w = r := Instr.pop.inj hfields
    rw [← hop]
    rfl

/-- PUSH and POP: nothing but the high half matters to the decoder (R86). -/
theorem decode_of_high_half {m : OpcodeMap} {v w : Word} {i : Instr} (h : decode m w = .ok i)
    (hi : ∃ r, i = .push r ∨ i = .pop r) (hv : v.toNat / 65536 = w.toNat / 65536) : decode m v = .ok i := by
  obtain ⟨hop, hr1⟩ := fields_of_high_half hv
  have hfields : i.withFieldsOf v = i.withFieldsOf w := by
    obtain ⟨r, rfl | rfl⟩ := hi
    · exact congrArg Instr.push hr1
    · exact congrArg Instr.pop hr1
  rw [decode_of_same_opcode hop h, hfields, withFieldsOf_of_decode h]

/-- Settles O25: six mnemonics use every bit of the word, PUSH and POP its high half. -/
theorem onlyPushAndPopIgnoreBits : Obligations.OnlyPushAndPopIgnoreBits := by
  intro m w i h
  refine ⟨encode_of_decode h, fun hi => ⟨?_, fun v => decode_of_high_half h hi⟩⟩
  rw [encode_eq_of_push_or_pop h hi, format1_toNat, high_half_eq]
  simp only [BitVec.ofNat_eq_ofNat, BitVec.toNat_zero, Nat.add_zero]

/-! ## Memory images (R82, R88) -/

/-- Four bytes decode as the word they assemble to, and the bytes after them are left over. -/
theorem decodeBytes_ok {m : OpcodeMap} {e : Endian} {b0 b1 b2 b3 : Byte} {rest rest' : List Byte} {i : Instr}
    (h : decodeBytes m e (b0 :: b1 :: b2 :: b3 :: rest) = .ok (i, rest')) :
    decode m (assembleBytes e [b0, b1, b2, b3]) = .ok i ∧ rest' = rest := by
  rw [decodeBytes] at h
  cases hdec : decode m (assembleBytes e [b0, b1, b2, b3]) with
  | ok j =>
    simp only [hdec, Except.ok.injEq, Prod.mk.injEq] at h
    exact ⟨by rw [h.1], h.2.symm⟩
  | error err => simp [hdec] at h

/-- Settles O28: mirrored bytes assemble to one word, whose top byte is BIG's first. -/
theorem memoryImagesMirror : Obligations.MemoryImagesMirror := by
  intro m b0 b1 b2 b3 rest
  refine ⟨by simp only [decodeBytes, assembleBytes_big_four, assembleBytes_little_four], fun i rest' h => ?_⟩
  obtain ⟨hdec, hrest⟩ := decodeBytes_ok h
  rw [assembleBytes_big_four] at hdec
  exact ⟨(opcode_of_decode hdec).trans (opcodeField_format23 ..), hrest⟩

/-! ## The table's words (95_test_vectors.md) -/

/-- Settles O26: nine closed words. -/
theorem wordsOfTheTableDecode : Obligations.WordsOfTheTableDecode := by
  unfold Obligations.WordsOfTheTableDecode
  decide

end Sys2Proof
end

section
/-! PROOFS. Byte order is invisible to programs (30_encoding.md R82, R88; 20_memory.md R56): two machines that hold the
same words answer every Bus read alike and stay related by every write, so each operation of the cycle treats them
alike. -/

namespace Sys2Proof.Machine

open Sys2Proof

/-! ## Lists related entry by entry -/

section Related

variable {α β : Type} {R : α → β → Prop} {xs : List α} {ys : List β}

/-- Related lists have related entries at each place, or none. -/
theorem rel_getElem?_of_forall₂ (h : List.Forall₂ R xs ys) (i : Nat) : Option.Rel R xs[i]? ys[i]? := by
  induction h generalizing i with
  | nil => exact .none
  | cons hxy _ ih =>
    cases i with
    | zero => exact .some hxy
    | succ i => exact ih i

/-- Replacing the entries at one place by related ones keeps lists related. -/
theorem forall₂_set (h : List.Forall₂ R xs ys) (i : Nat) {x : α} {y : β} (hxy : R x y) :
    List.Forall₂ R (xs.set i x) (ys.set i y) := by
  induction h generalizing i with
  | nil => exact .nil
  | cons hhead htail ih =>
    cases i with
    | zero => exact .cons hxy htail
    | succ i => exact .cons hhead (ih i)

end Related

namespace SameButEndian

variable {s t : State} (h : SameButEndian s t)

include h

/-! ## Registers -/

theorem nRegs : t.nRegs = s.nRegs := congrArg List.length h.regs

theorem pci : t.pci = s.pci := by rw [State.pci, State.pci, h.nRegs]

theorem spi : t.spi = s.spi := by rw [State.spi, State.spi, h.nRegs]

theorem readReg (i : Nat) : t.readReg i = s.readReg i := by rw [State.readReg, State.readReg, h.regs]

theorem pc : t.pc = s.pc := by rw [State.pc, State.pc, h.pci, h.readReg]

theorem sp : t.sp = s.sp := by rw [State.sp, State.sp, h.spi, h.readReg]

theorem instrAddr : t.instrAddr = s.instrAddr := by rw [State.instrAddr, State.instrAddr, h.pc]

theorem writeReg (i : Nat) (v : Word) : SameButEndian (s.writeReg i v) (t.writeReg i v) :=
  { h with regs := by rw [writeReg_regs, writeReg_regs, h.regs] }

theorem advance : SameButEndian s.advance t.advance := by
  rw [State.advance, State.advance, h.pci, h.pc]
  exact h.writeReg _ _

theorem decrementSp : SameButEndian (decrementSp s) (decrementSp t) := by
  rw [Machine.decrementSp, Machine.decrementSp, h.spi, h.sp]
  exact h.writeReg _ _

theorem incrementSp : SameButEndian (incrementSp s) (incrementSp t) := by
  rw [Machine.incrementSp, Machine.incrementSp, h.spi, h.sp]
  exact h.writeReg _ _

/-! ## The Bus -/

/-- The two devices behind one reference hold the same words, so a word read answers alike. -/
theorem devRead (dev : Device) (a : Word) : t.devRead dev a = s.devRead dev a := by
  cases dev with
  | cpu => rfl
  | memory m =>
    have hrel := rel_getElem?_of_forall₂ h.mems m
    simp only [State.devRead]
    generalize s.mems[m]? = x at hrel ⊢
    generalize t.mems[m]? = y at hrel ⊢
    cases hrel with
    | none => rfl
    | @some d d' hd =>
      obtain ⟨-, hbase, -, hread⟩ := hd
      simp only [Memory.localAddr, hbase, hread]

theorem memRead (a : Word) : t.memRead a = s.memRead a := by
  simp only [State.memRead, route_congr h.registry]
  cases s.route a with
  | none => rfl
  | some dev => exact h.devRead dev a

/-- A write that completes on one machine completes on the other, and they hold the same words again. -/
theorem memWrite_ok {s' : State} {a v : Word} (hs : s.Inv) (ht : t.Inv) (hw : s.memWrite a v = .ok s') :
    ∃ t', t.memWrite a v = .ok t' ∧ SameButEndian s' t' := by
  obtain ⟨m, d, hroute, hd, ha, hb, rfl⟩ := Machine.memWrite_ok hw
  have hrel := rel_getElem?_of_forall₂ h.mems m
  rw [hd] at hrel
  generalize hd' : t.mems[m]? = y at hrel
  cases hrel with
  | @some _ d' hsame =>
    have ⟨hsize, hbase, _, _⟩ := hsame
    have hlocal : d'.localAddr a = d.localAddr a := by rw [Memory.localAddr, Memory.localAddr, hbase]
    refine ⟨_, memWrite_of_fits v ((route_congr h.registry a).trans hroute) hd' (hlocal ▸ ha) (hlocal ▸ hsize ▸ hb), ?_⟩
    rw [hlocal]
    exact { h with
      mems := forall₂_set h.mems m (hsame.writeBytes (hs.mem_wf d (List.mem_of_getElem? hd))
        (ht.mem_wf d' (List.mem_of_getElem? hd')) v ha hb) }

/-! ## The cycle -/

theorem validated (rs : List RegIndex) {o o' : Out} (ho : OutRel SameButEndian o o') :
    OutRel SameButEndian (validated rs s o) (validated rs t o') := by
  simp only [Machine.validated, h.nRegs, h.instrAddr]
  split
  · exact ho
  · exact .execute h

theorem storeWord (ea v : Word) (hs : s.Inv) (ht : t.Inv) :
    OutRel SameButEndian (storeWord ea v s) (storeWord ea v t) := by
  cases hw : s.memWrite ea v with
  | ok s' =>
    obtain ⟨t', hw', h'⟩ := h.memWrite_ok hs ht hw
    simp only [Machine.storeWord, hw, hw']
    exact .next h'
  | fail k =>
    have hr : t.memRead ea = .fail k := (h.memRead ea).trans (memRead_fail_iff_memWrite_fail.mpr hw)
    simp only [Machine.storeWord, hw, memRead_fail_iff_memWrite_fail.mp hr]
    exact .execute h

theorem loadWord (ea : Word) (r : RegIndex) {f : State → State}
    (hf : ∀ {s t : State}, SameButEndian s t → SameButEndian (f s) (f t)) :
    OutRel SameButEndian (loadWord ea r s f) (loadWord ea r t f) := by
  simp only [Machine.loadWord, h.memRead]
  cases s.memRead ea with
  | ok v => exact .next (hf (h.writeReg _ v))
  | fail k => exact .execute h

theorem exec (i : Instr) (hs : s.Inv) (ht : t.Inv) : OutRel SameButEndian (exec i s) (exec i t) := by
  cases i with
  | loadli r imm16 =>
    simp only [Machine.exec, execLoadli, h.readReg]
    exact h.validated _ (.next (h.writeReg _ _))
  | loadhi r imm16 =>
    simp only [Machine.exec, execLoadhi, h.readReg]
    exact h.validated _ (.next (h.writeReg _ _))
  | add r1 r2 r3 =>
    simp only [Machine.exec, execAdd, h.readReg]
    exact h.validated _ (.next (h.writeReg _ _))
  | sub r1 r2 r3 =>
    simp only [Machine.exec, execSub, h.readReg]
    exact h.validated _ (.next (h.writeReg _ _))
  | store r1 r2 offset =>
    simp only [Machine.exec, execStore, h.readReg]
    exact h.validated _ (h.storeWord _ _ hs ht)
  | load r1 r2 offset =>
    simp only [Machine.exec, execLoad, h.readReg]
    exact h.validated _ (h.loadWord _ _ id)
  | push r1 =>
    have hdec := h.decrementSp
    simp only [Machine.exec, execPush, pushStore, hdec.sp, hdec.readReg]
    exact h.validated _ (hdec.storeWord _ _ (hs.writeReg _ _) (ht.writeReg _ _))
  | pop r1 =>
    simp only [Machine.exec, execPop, h.sp]
    exact h.validated _ (h.loadWord _ _ incrementSp)

theorem runWord (w : Word) (hs : s.Inv) (ht : t.Inv) : OutRel SameButEndian (runWord w s) (runWord w t) := by
  simp only [Machine.runWord, h.opcodes, h.instrAddr]
  cases decode s.soc.opcodeMap w with
  | error e => exact .execute h
  | ok i => exact h.exec i hs ht

theorem step (hs : s.Inv) (ht : t.Inv) : OutRel SameButEndian (step s) (step t) := by
  simp only [Machine.step, cycle, State.fetch, h.pc, h.memRead]
  cases s.memRead s.pc with
  | fail k =>
    simp only [failFetch, h.pc]
    exact .fetch h
  | ok w => exact h.advance.runWord w (hs.writeReg _ _) (ht.writeReg _ _)

end SameButEndian

/-- Settles O53: the fetch reads one word on both machines, and every instruction keeps them related. -/
theorem byteOrderIsInvisibleToPrograms : Obligations.ByteOrderIsInvisibleToPrograms := fun _ _ hs ht h => h.step hs ht

end Sys2Proof.Machine
end

section
/-! PROOFS. Pseudo-instructions (30_encoding.md R90): what one word of an expansion does, what the fragments that
expansions share do (load a 32-bit value, push then pop, return), and from these each pseudo-instruction. -/

namespace Sys2Proof.Machine

open Sys2Proof

/-! ## The merges (R120, R121) -/

theorem mergeLow_toNat (old : Word) (imm16 : Imm16) :
    (mergeLow old imm16).toNat = old.toNat / 65536 * 65536 + imm16.toNat := by
  have hold := old.isLt
  rw [mergeLow_eq, BitVec.toNat_append, ← Nat.shiftLeft_add_eq_or_of_lt imm16.isLt, Nat.shiftLeft_eq,
    BitVec.extractLsb'_toNat, Nat.shiftRight_eq_div_pow]
  omega

/-- Replacing the high half by itself changes nothing. -/
theorem mergeHigh_self (v : Word) : mergeHigh v (v.extractLsb' 16 16) = v := by
  rw [mergeHigh_eq]
  exact (BitVec.extractLsb'_append_extractLsb'_eq_extractLsb' (x := v) rfl).trans BitVec.extractLsb'_eq_self

/-- The two halves of a value, the low one first, replace the whole word. -/
theorem mergeHigh_mergeLow (old v : Word) :
    mergeHigh (mergeLow old (v.extractLsb' 0 16)) (v.extractLsb' 16 16) = v := by
  have hlow : (mergeLow old (v.extractLsb' 0 16)).extractLsb' 0 16 = v.extractLsb' 0 16 := by
    apply BitVec.eq_of_toNat_eq
    simp only [BitVec.extractLsb'_toNat, mergeLow_toNat, Nat.shiftRight_zero]
    omega
  rw [mergeHigh_eq, hlow, ← mergeHigh_eq, mergeHigh_self]

/-! ## Registers and memory between states -/

/-- The index that expansions write for PC is PC's (R89): an index field holds every one of the registers. -/
theorem State.Inv.pcIndex_toNat {s : State} (h : s.Inv) : (BitVec.ofNat 8 (s.nRegs - 1) : RegIndex).toNat = s.pci := by
  have hhigh := h.regs_high
  rw [BitVec.toNat_ofNat, State.pci]
  omega

theorem SameRegsBut.pci {js : List Nat} {s t : State} (h : SameRegsBut js s t) : t.pci = s.pci := by
  rw [State.pci, State.pci, h.1]

theorem SameRegsBut.spi {js : List Nat} {s t : State} (h : SameRegsBut js s t) : t.spi = s.spi := by
  rw [State.spi, State.spi, h.1]

/-- Changes that leave SP as it was leave it out. -/
theorem SameRegsBut.restore_sp {js ks : List Nat} {s t : State} (h : SameRegsBut js s t) (hsp : t.sp = s.sp)
    (hs : ∀ i ∈ js, i = s.spi ∨ i ∈ ks) : SameRegsBut ks s t := by
  refine ⟨h.1, fun i hi hn => ?_⟩
  by_cases hi' : i = s.spi
  · rwa [State.sp, State.sp, h.spi, ← hi'] at hsp
  · exact h.2 i hi fun hmem => (hs i hmem).elim hi' hn

theorem SameRegsBut.pc {js : List Nat} {s t : State} (h : SameRegsBut js s t) (hs : s.Inv) (hn : s.pci ∉ js) :
    t.pc = s.pc := by
  rw [State.pc, h.pci, h.2 _ hs.pci_lt hn]
  rfl

theorem SameRegsBut.sp {js : List Nat} {s t : State} (h : SameRegsBut js s t) (hs : s.Inv) (hn : s.spi ∉ js) :
    t.sp = s.sp := by
  rw [State.sp, h.spi, h.2 _ hs.spi_lt hn]
  rfl

theorem SameMemory.but {m l n : Nat} {s t u : State} (h : SameMemory s t) (h' : SameMemoryBut m l n t u) :
    SameMemoryBut m l n s u := fun m' l' hout => (h' m' l' hout).trans (h m' l')

theorem SameRegs.but {s t : State} (h : SameRegs s t) : SameRegsBut [] s t := ⟨h.1, fun i hi _ => h.2 i hi⟩

theorem seenReg_of_ne {s : State} {i : Nat} (h : i ≠ s.pci) : s.seenReg i = s.readReg i := if_neg h

theorem seenReg_pci (s : State) : s.seenReg s.pci = s.pc + 4 := if_pos rfl

/-- The state after an instruction word whose one effect is to write `v` to register `i`. -/
def State.advanceWrite (s : State) (i : Nat) (v : Word) : State := s.advance.writeReg i v

section AdvanceWrite

variable {s : State} {i : Nat} {v : Word}

@[simp] theorem advanceWrite_nRegs : (s.advanceWrite i v).nRegs = s.nRegs := by simp [State.advanceWrite]
@[simp] theorem advanceWrite_pci : (s.advanceWrite i v).pci = s.pci := by simp [State.advanceWrite]
@[simp] theorem advanceWrite_spi : (s.advanceWrite i v).spi = s.spi := by simp [State.advanceWrite]

theorem State.Inv.advanceWrite (h : s.Inv) (i : Nat) (v : Word) : (s.advanceWrite i v).Inv :=
  (h.writeReg _ _).writeReg _ _

theorem sameSetup_advanceWrite (s : State) (i : Nat) (v : Word) : SameSetup s (s.advanceWrite i v) :=
  (sameSetup_writeReg ..).trans (sameSetup_writeReg ..)

theorem sameRegsBut_advanceWrite (s : State) (i : Nat) (v : Word) : SameRegsBut [s.pci, i] s (s.advanceWrite i v) :=
  (sameRegsBut_writeReg ..).comp (sameRegsBut_writeReg ..)

theorem advanceWrite_readReg_same (hi : i < s.nRegs) : (s.advanceWrite i v).readReg i = v :=
  readReg_writeReg_same (by simpa using hi) v

theorem advanceWrite_seenReg_same (hi : i < s.nRegs) (hpc : i ≠ s.pci) : (s.advanceWrite i v).seenReg i = v := by
  rw [seenReg_of_ne (by simpa using hpc), advanceWrite_readReg_same hi]

theorem advanceWrite_pc (h : s.Inv) (hi : i ≠ s.pci) : (s.advanceWrite i v).pc = s.pc + 4 := by
  rw [State.pc, advanceWrite_pci, State.advanceWrite, readReg_writeReg_ne hi.symm, advance_readReg_pci h.pci_lt]

theorem advanceWrite_pc_of_pci (h : s.Inv) : (s.advanceWrite s.pci v).pc = v := by
  rw [State.pc, advanceWrite_pci, advanceWrite_readReg_same h.pci_lt]

theorem advanceWrite_sp (h : s.Inv) (hi : i ≠ s.spi) : (s.advanceWrite i v).sp = s.sp := by
  rw [State.sp, advanceWrite_spi, State.advanceWrite, readReg_writeReg_ne hi.symm, advance_readReg_ne h.spi_ne_pci]
  rfl

/-- The state after a POP word that loads `v` into register `i`: SP then passes the word (R151). -/
def State.popWrite (s : State) (i : Nat) (v : Word) : State := incrementSp (s.advanceWrite i v)

theorem popWrite_readReg_same (h : s.Inv) (hi : i < s.nRegs) (hsp : i ≠ s.spi) : (s.popWrite i v).readReg i = v := by
  have hne : i ≠ (s.advanceWrite i v).spi := by simpa using hsp
  rw [State.popWrite, incrementSp_readReg (h.advanceWrite i v).spi_lt, if_neg hne, advanceWrite_readReg_same hi]

theorem popWrite_pc (h : s.Inv) : (s.popWrite i v).pc = (s.advanceWrite i v).pc := by
  have hpci : (s.popWrite i v).pci = (s.advanceWrite i v).pci := writeReg_pci ..
  have ht := h.advanceWrite i v
  rw [State.pc, State.pc, hpci, State.popWrite, incrementSp_readReg ht.spi_lt, if_neg ht.spi_ne_pci.symm]

theorem popWrite_sp (h : s.Inv) (hi : i ≠ s.spi) : (s.popWrite i v).sp = s.sp + 4 := by
  rw [State.popWrite, incrementSp_sp (h.advanceWrite i v).spi_lt, advanceWrite_sp h hi]

theorem sameRegsBut_popWrite (s : State) (i : Nat) (v : Word) :
    SameRegsBut [s.pci, i, s.spi] s (s.popWrite i v) :=
  (sameRegsBut_advanceWrite s i v).comp (advanceWrite_spi (s := s) (v := v) ▸ sameRegsBut_writeReg ..)

end AdvanceWrite

/-! ## Completed stack instructions -/

section Stack

variable {s : State} {r : RegIndex} {m l : Nat}

/-- A backed place that holds a word reads as it. -/
theorem memRead_of_holdsWord {a v : Word} (hw : WordAt s a m l) (hv : HoldsWord s m l v) : s.memRead a = .ok v := by
  obtain ⟨u, hread, hu⟩ := memRead_of_wordAt hw
  rw [hread, hu.unique hv]

theorem exec_pop_of_memRead (hr : r.toNat < s.nRegs) {v : Word} (hv : s.memRead s.sp = .ok v) :
    exec (.pop r) s = .next (incrementSp (s.writeReg r.toNat v)) := by
  refine (validated_of_valid (by simpa using hr) _).trans ?_
  simp only [loadWord, hv]

/-- A PUSH onto a backed word below SP completes (R150). -/
theorem exec_push_of_wordAt (hs : s.Inv) (hr : r.toNat < s.nRegs) (hw : WordAt s (s.sp - 4) m l) :
    ∃ t, exec (.push r) s = .next t ∧ t.sp = s.sp - 4 ∧ SameRegsBut [s.spi] s t ∧
      HoldsWord t m l ((decrementSp s).readReg r.toNat) ∧ SameMemoryBut m l 4 s t ∧ SameSetup s t := by
  have hdec : (decrementSp s).Inv := hs.writeReg _ _
  have hsetup : SameSetup s (decrementSp s) := sameSetup_writeReg ..
  have hsp := decrementSp_sp hs.spi_lt
  obtain ⟨t, hwrite, hword, hbytes, hregs, hsame⟩ :=
    memWrite_of_wordAt hdec ((decrementSp s).readReg r.toNat) (hw.of_setup hsetup)
  have hexec : exec (.push r) s = .next t := by
    refine (validated_of_valid (by simpa using hr) _).trans ?_
    simp only [pushStore, storeWord, hsp, hwrite]
  exact ⟨t, hexec, (hregs.but.sp hdec (by simp)).trans hsp, (sameRegsBut_writeReg ..).comp hregs.but, hword, hbytes,
    hsetup.trans hsame⟩

end Stack

/-! ## One word of an expansion -/

section Items

variable {s t : State} (hs : s.Inv)

include hs

/-- An instruction's canonical word runs the instruction at the advanced state, since it decodes to it (R86). -/
theorem runItems_instr {i : Instr} (h : exec i s.advance = .next t) (is : List AsmItem) :
    runItems (.instr i :: is) s = runItems is t := by
  have hrun : runWord (encode s.soc.opcodeMap i) s.advance = .next t := by
    rw [runWord, advance_soc, decode_encode hs.opcodes]
    exact h
  rw [runItems, AsmItem.toWord, hrun]

theorem runItems_loadli {r : RegIndex} (hr : r.toNat < s.nRegs) (imm16 : Imm16) (is : List AsmItem) :
    runItems (.instr (.loadli r imm16) :: is) s =
      runItems is (s.advanceWrite r.toNat (mergeLow (s.seenReg r.toNat) imm16)) := by
  refine runItems_instr hs ?_ is
  rw [← advance_readReg hs.pci_lt]
  exact validated_of_valid (by simpa using hr) _

theorem runItems_loadhi {r : RegIndex} (hr : r.toNat < s.nRegs) (imm16 : Imm16) (is : List AsmItem) :
    runItems (.instr (.loadhi r imm16) :: is) s =
      runItems is (s.advanceWrite r.toNat (mergeHigh (s.seenReg r.toNat) imm16)) := by
  refine runItems_instr hs ?_ is
  rw [← advance_readReg hs.pci_lt]
  exact validated_of_valid (by simpa using hr) _

/-- A register subtracted from itself is cleared (R90). -/
theorem runItems_sub_self {r : RegIndex} (hr : r.toNat < s.nRegs) (is : List AsmItem) :
    runItems (.instr (.sub r r r) :: is) s = runItems is (s.advanceWrite r.toNat 0) := by
  have hzero : aluSub (s.advance.readReg r.toNat) (s.advance.readReg r.toNat) = 0 := BitVec.sub_self _
  refine runItems_instr hs ?_ is
  rw [State.advanceWrite, ← hzero]
  exact validated_of_valid (by simpa using hr) _

theorem runItems_pop {r : RegIndex} (hr : r.toNat < s.nRegs) {v : Word} (hv : s.memRead s.sp = .ok v)
    (is : List AsmItem) : runItems (.instr (.pop r) :: is) s = runItems is (s.popWrite r.toNat v) := by
  refine runItems_instr hs (exec_pop_of_memRead (by simpa using hr) ?_) is
  rw [advance_sp hs]
  exact (memRead_congr (advance_registry s) (advance_mems s) rfl _).trans hv

/-- A word whose opcode byte no mnemonic has ends the run (R102). -/
theorem runItems_word_unmapped {w : Word} (h : opcodeField w ∉ s.soc.opcodeMap.codes) (is : List AsmItem) :
    runItems (.word w :: is) s = .fault (.execute .decOpcode s.pc s.advance) := by
  have hrun : runWord w s.advance = .fault (.execute .decOpcode s.pc s.advance) := by
    rw [runWord, advance_soc, decode_of_unmapped h, ← advance_instrAddr hs]
    rfl
  rw [runItems, AsmItem.toWord, hrun]

end Items

/-- What a PUSH word leaves that pushes `v` onto the backed word at `l` of memory device `m` (R150). -/
structure Pushed (s t : State) (m l : Nat) (v : Word) : Prop where
  inv   : t.Inv
  setup : SameSetup s t
  pc    : t.pc = s.pc + 4
  sp    : t.sp = s.sp - 4
  regs  : SameRegsBut [s.pci, s.spi] s t
  word  : HoldsWord t m l v
  bytes : SameMemoryBut m l 4 s t

/-- A PUSH word of any register but SP pushes what the register reads once PC is advanced. -/
theorem runItems_push {s : State} (hs : s.Inv) {r : RegIndex} (hr : r.toNat < s.nRegs) (hsp : r.toNat ≠ s.spi)
    {m l : Nat} (hw : WordAt s (s.sp - 4) m l) :
    ∃ t, Pushed s t m l (s.seenReg r.toNat) ∧
      ∀ is, runItems (.instr (.push r) :: is) s = runItems is t := by
  have hadv : s.advance.Inv := hs.writeReg _ _
  have hsetup : SameSetup s s.advance := sameSetup_writeReg ..
  have hw' := hw.of_setup hsetup
  rw [← advance_sp hs] at hw'
  obtain ⟨t, hexec, ht, hregs, hword, hbytes, hsame⟩ := exec_push_of_wordAt hadv (r := r) (by simpa using hr) hw'
  rw [decrementSp_readReg hadv.spi_lt, if_neg (by simpa using hsp), advance_readReg hs.pci_lt] at hword
  have hpc : t.pc = s.pc + 4 :=
    (hregs.pc hadv (by simpa using hs.spi_ne_pci.symm)).trans (advance_pc hs.pci_lt)
  have hbut : SameRegsBut [s.pci, s.spi] s t := advance_spi s ▸ (sameRegsBut_writeReg ..).comp hregs
  exact ⟨t, ⟨keptByWrites_inv.exec_next hadv hexec, hsetup.trans hsame, hpc, advance_sp hs ▸ ht, hbut, hword, hbytes⟩,
    runItems_instr hs hexec⟩

/-! ## Fragments that expansions share -/

/-- What two register-writing words leave that end with `v` in register `i`, which is not PC. -/
structure Loaded (s t : State) (i : Nat) (v : Word) : Prop where
  inv   : t.Inv
  setup : SameSetup s t
  bytes : SameMemory s t
  pc    : t.pc = s.pc + 8
  value : t.readReg i = v
  regs  : SameRegsBut [i, s.pci] s t

theorem loaded_advanceWrite_twice {s : State} (hs : s.Inv) {i : Nat} (hi : i < s.nRegs) (hpc : i ≠ s.pci)
    (u v : Word) : Loaded s ((s.advanceWrite i u).advanceWrite i v) i v where
  inv := (hs.advanceWrite i u).advanceWrite i v
  setup := (sameSetup_advanceWrite ..).trans (sameSetup_advanceWrite ..)
  bytes := sameMemory_of_mems rfl
  pc := by
    rw [advanceWrite_pc (hs.advanceWrite i u) (by simpa using hpc), advanceWrite_pc hs hpc, BitVec.add_assoc]
    rfl
  value := advanceWrite_readReg_same (by simpa using hi)
  regs := ((sameRegsBut_advanceWrite s i u).comp (sameRegsBut_advanceWrite ..)).weaken (by simp)

theorem Loaded.seen {s t : State} {i : Nat} {v : Word} (h : Loaded s t i v) (hpc : i ≠ s.pci) : t.seenReg i = v :=
  (seenReg_of_ne (h.regs.pci ▸ hpc)).trans h.value

theorem Loaded.sp {s t : State} {i : Nat} {v : Word} (h : Loaded s t i v) (hs : s.Inv) (hsp : i ≠ s.spi) :
    t.sp = s.sp := h.regs.sp hs (by simp [hsp.symm, hs.spi_ne_pci])

/-- LI32's two words load the value (R90). -/
theorem runItems_li32 {s : State} (hs : s.Inv) {r : RegIndex} (hr : r.toNat < s.nRegs) (hpc : r.toNat ≠ s.pci)
    (v : Word) (is : List AsmItem) :
    ∃ t, Loaded s t r.toNat v ∧ runItems (li32Items r v ++ is) s = runItems is t := by
  refine ⟨_, loaded_advanceWrite_twice hs hr hpc (mergeLow (s.seenReg r.toNat) (v.extractLsb' 0 16)) v, ?_⟩
  have hs' := hs.advanceWrite r.toNat (mergeLow (s.seenReg r.toNat) (v.extractLsb' 0 16))
  rw [li32Items, List.cons_append, runItems_loadli hs hr, List.cons_append, runItems_loadhi hs' (by simpa using hr),
    advanceWrite_seenReg_same hr hpc, mergeHigh_mergeLow, List.nil_append]

/-- What a PUSH and a POP leave that move `v` into register `i` through the word at `l` of memory device `m`. -/
structure Moved (s t : State) (m l i : Nat) (v : Word) : Prop where
  value : t.readReg i = v
  sp    : t.sp = s.sp
  pc    : i ≠ s.pci → t.pc = s.pc + 8
  word  : HoldsWord t m l v
  regs  : SameRegsBut [i, s.pci] s t
  bytes : SameMemoryBut m l 4 s t

/-- A push and a pop move a register and give SP back, since the pop reads what the push wrote (R90). -/
theorem runItems_push_pop {s : State} (hs : s.Inv) {d r : RegIndex} (hd : d.toNat < s.nRegs) (hr : r.toNat < s.nRegs)
    (hdsp : d.toNat ≠ s.spi) (hrsp : r.toNat ≠ s.spi) {m l : Nat} (hw : WordAt s (s.sp - 4) m l) :
    ∃ t, runItems [.instr (.push r), .instr (.pop d)] s = .next t ∧ Moved s t m l d.toNat (s.seenReg r.toNat) := by
  obtain ⟨u, hu, hrun⟩ := runItems_push hs hr hrsp hw
  have hread : u.memRead u.sp = .ok (s.seenReg r.toNat) := by
    rw [hu.sp]
    exact memRead_of_holdsWord (hw.of_setup hu.setup) hu.word
  have hd' : d.toNat < u.nRegs := hu.regs.1 ▸ hd
  have hdsp' : d.toNat ≠ u.spi := hu.regs.spi ▸ hdsp
  have hsp : (u.popWrite d.toNat (s.seenReg r.toNat)).sp = s.sp := by
    rw [popWrite_sp hu.inv hdsp', hu.sp, BitVec.sub_add_cancel]
  have hregs := hu.regs.comp (sameRegsBut_popWrite u d.toNat (s.seenReg r.toNat))
  rw [hu.regs.pci, hu.regs.spi] at hregs
  refine ⟨_, by rw [hrun, runItems_pop hu.inv hd' hread, runItems_nil],
    ⟨popWrite_readReg_same hu.inv hd' hdsp', hsp, fun hpc => ?_, hu.word, hregs.restore_sp hsp (by simp), hu.bytes⟩⟩
  rw [popWrite_pc hu.inv, advanceWrite_pc hu.inv (hu.regs.pci ▸ hpc), hu.pc, BitVec.add_assoc]
  rfl

/-- A move into PC is a jump. -/
theorem Moved.jump {s t : State} {m l : Nat} {v : Word} (h : Moved s t m l s.pci v) :
    t.pc = v ∧ SameRegsBut [s.pci] s t := by
  refine ⟨?_, h.regs.weaken (by simp)⟩
  rw [State.pc, h.regs.pci, h.value]

/-- JMPR's two words jump to what the register reads (R90). -/
theorem runItems_jmpr {s : State} (hs : s.Inv) {r : RegIndex} (hr : r.toNat < s.nRegs) (hrsp : r.toNat ≠ s.spi)
    {m l : Nat} (hw : WordAt s (s.sp - 4) m l) (here : Word) :
    ∃ t, runItems ((Pseudo.jmpr r).expand s.nRegs here) s = .next t ∧ Moved s t m l s.pci (s.seenReg r.toNat) := by
  have hpc := hs.pcIndex_toNat
  have h := runItems_push_pop hs (d := BitVec.ofNat 8 (s.nRegs - 1)) (hpc ▸ hs.pci_lt) hr (hpc ▸ hs.spi_ne_pci.symm)
    hrsp hw
  rwa [hpc] at h

/-- RET's word pops PC (R90). -/
theorem runItems_ret {s : State} (hs : s.Inv) {v : Word} (hv : s.memRead s.sp = .ok v) (here : Word) :
    runItems (Pseudo.ret.expand s.nRegs here) s = .next (s.popWrite s.pci v) := by
  have hpc := hs.pcIndex_toNat
  rw [Pseudo.expand, runItems_pop hs (hpc ▸ hs.pci_lt) hv, hpc, runItems_nil]

/-- LOADLI into PC is a jump within the region of the next word (R90, C9). -/
theorem runItems_jmp16 {s : State} (hs : s.Inv) (imm16 : Imm16) (here : Word) :
    runItems ((Pseudo.jmp16 imm16).expand s.nRegs here) s =
      .next (s.advanceWrite s.pci (mergeLow (s.pc + 4) imm16)) := by
  have hpc := hs.pcIndex_toNat
  rw [Pseudo.expand, runItems_loadli hs (hpc ▸ hs.pci_lt), hpc, seenReg_pci, runItems_nil]

/-- What CALL16 leaves that pushes `back` onto the word at `l` of memory device `m`, with scratch register `i`. -/
structure Called (s t : State) (m l i : Nat) (back : Word) : Prop where
  inv   : t.Inv
  setup : SameSetup s t
  sp    : t.sp = s.sp - 4
  regs  : SameRegsBut [i, s.spi, s.pci] s t
  word  : HoldsWord t m l back
  bytes : SameMemoryBut m l 4 s t

/-- CALL16 is LI32 of the return address, a push of it and a near jump (R90). -/
theorem runItems_call16 {s : State} (hs : s.Inv) {r : RegIndex} (hr : r.toNat < s.nRegs) (hpc : r.toNat ≠ s.pci)
    (hsp : r.toNat ≠ s.spi) {m l : Nat} (hw : WordAt s (s.sp - 4) m l) (imm16 : Imm16) :
    ∃ t, runItems ((Pseudo.call16 imm16 r).expand s.nRegs s.pc) s = .next t ∧
      t.pc = mergeLow (s.pc + 16) imm16 ∧ Called s t m l r.toNat (s.pc + 16) := by
  obtain ⟨u, hu, hload⟩ := runItems_li32 hs hr hpc (s.pc + 16)
    (.instr (.push r) :: (Pseudo.jmp16 imm16).expand s.nRegs s.pc)
  have husp := hu.sp hs hsp
  obtain ⟨p, hp, hpush⟩ := runItems_push hu.inv (hu.regs.1 ▸ hr) (hu.regs.spi ▸ hsp) (husp ▸ hw.of_setup hu.setup)
  rw [hu.seen hpc] at hp
  have hjump := runItems_jmp16 hp.inv imm16 s.pc
  rw [hp.regs.1, hu.regs.1] at hjump
  have hnext : p.pc + 4 = s.pc + 16 := by
    rw [hp.pc, hu.pc]
    bv_omega
  have hregs := (hu.regs.comp hp.regs).comp (sameRegsBut_advanceWrite p p.pci (mergeLow (p.pc + 4) imm16))
  refine ⟨_, hload.trans ((hpush _).trans hjump), by rw [advanceWrite_pc_of_pci hp.inv, hnext],
    ⟨hp.inv.advanceWrite .., ?_, ?_, ?_, hp.word, ?_⟩⟩
  · exact (hu.setup.trans hp.setup).trans (sameSetup_advanceWrite ..)
  · rw [advanceWrite_sp hp.inv hp.inv.spi_ne_pci.symm, hp.sp, husp]
  · exact hregs.weaken (by simp [hp.regs.pci, hu.regs.pci, hu.regs.spi])
  · exact hu.bytes.but hp.bytes

/-! ## The pseudo-instructions -/

/-- Settles O54: each word writes the register, from zero (CLR, LI16) or in two halves (LI32). -/
theorem immediatePseudosSetTheRegister : Obligations.ImmediatePseudosSetTheRegister := by
  intro s d imm16 imm32 hs hd hpc
  have hli16 := loaded_advanceWrite_twice hs hd hpc 0 (mergeLow 0 imm16)
  obtain ⟨t, hli32, hrun⟩ := runItems_li32 hs hd hpc imm32 []
  refine ⟨⟨_, runItems_sub_self hs hd [], advanceWrite_readReg_same hd, advanceWrite_pc hs hpc,
      (sameRegsBut_advanceWrite ..).weaken (by simp), sameMemory_of_mems rfl⟩,
    ⟨_, ?_, ?_, hli16.pc, hli16.regs, hli16.bytes⟩,
    ⟨t, by rwa [List.append_nil] at hrun, hli32.value, hli32.pc, hli32.regs, hli32.bytes⟩⟩
  · rw [Pseudo.expand, runItems_sub_self hs hd, runItems_loadli (hs.advanceWrite ..) (by simpa using hd),
      advanceWrite_seenReg_same hd hpc, runItems_nil]
  · rw [hli16.value, mergeLow_toNat]
    simp

/-- Settles O55: both are a push and a pop; JMPR's goes to PC. -/
theorem pushPopPseudosMoveTheRegister : Obligations.PushPopPseudosMoveTheRegister := by
  intro s d r m l hs hd hr hdsp hrsp hw
  obtain ⟨t, hrun, ht⟩ := runItems_push_pop hs hd hr hdsp hrsp hw
  obtain ⟨u, hrun', hu⟩ := runItems_jmpr hs hr hrsp hw s.pc
  exact ⟨⟨t, hrun, ht.value, ht.sp, ht.pc, ht.word, ht.regs, ht.bytes⟩,
    ⟨u, hrun', hu.jump.1, hu.sp, hu.word, hu.jump.2, hu.bytes⟩⟩

/-- Settles O56: JMP32 is LI32 and then JMPR, RET a pop into PC. -/
theorem jmp32AndRetJump : Obligations.Jmp32AndRetJump := by
  intro s m l hs
  refine ⟨fun imm32 r hr hpc hsp hw => ?_, fun hw => ?_⟩
  · obtain ⟨u, hu, hrun⟩ := runItems_li32 hs hr hpc imm32 ((Pseudo.jmpr r).expand s.nRegs s.pc)
    have husp := hu.sp hs hsp
    obtain ⟨t, hrun', ht⟩ := runItems_jmpr hu.inv (hu.regs.1 ▸ hr) (hu.regs.spi ▸ hsp)
      (husp ▸ hw.of_setup hu.setup) s.pc
    rw [hu.seen hpc] at ht
    rw [hu.regs.1] at hrun'
    obtain ⟨htpc, htregs⟩ := ht.jump
    rw [hu.regs.pci] at htregs
    refine ⟨t, hrun.trans hrun', htpc, ?_, ht.sp.trans husp, ht.word, (hu.regs.comp htregs).weaken (by simp),
      hu.bytes.but ht.bytes⟩
    rw [htregs.2 _ (hu.regs.1 ▸ hr) (by simpa using hpc), hu.value]
  · obtain ⟨v, hread, hv⟩ := memRead_of_wordAt hw
    refine ⟨_, v, runItems_ret hs hread s.pc, hv, ?_, popWrite_sp hs hs.spi_ne_pci.symm,
      (sameRegsBut_popWrite ..).weaken (by simp), sameMemory_of_mems rfl⟩
    rw [popWrite_pc hs, advanceWrite_pc_of_pci hs]

/-- Settles O57: the call pushes the return address and jumps near; the return pops it. -/
theorem callThenReturn : Obligations.CallThenReturn := by
  intro s imm16 r m l hs hr hpc hsp hw
  obtain ⟨t, hcall, htpc, ht⟩ := runItems_call16 hs hr hpc hsp hw imm16
  have hread : t.memRead t.sp = .ok (s.pc + 16) := by
    rw [ht.sp]
    exact memRead_of_holdsWord (hw.of_setup ht.setup) ht.word
  have hback : SameRegsBut [s.spi, s.pci] t (t.popWrite t.pci (s.pc + 16)) :=
    (sameRegsBut_popWrite ..).weaken (by simp [ht.regs.pci, ht.regs.spi])
  refine ⟨t, hcall, by rw [htpc, mergeLow_toNat], ht.sp, ht.word, ht.regs, ht.bytes, _, runItems_ret ht.inv hread t.pc,
    ?_, ?_, hback, sameMemory_of_mems rfl⟩
  · rw [popWrite_pc ht.inv, advanceWrite_pc_of_pci ht.inv]
  · rw [popWrite_sp ht.inv ht.inv.spi_ne_pci.symm, ht.sp, BitVec.sub_add_cancel]

/-- Settles O58: LOADHI of PC's own high half, LOADLI into PC, and a word that no instruction has. -/
theorem nopJumpAndHalt : Obligations.NopJumpAndHalt := by
  intro s imm16 hs
  have hpc := hs.pcIndex_toNat
  refine ⟨⟨s.advanceWrite s.pci (s.pc + 4), ?_, advanceWrite_pc_of_pci hs,
      (sameRegsBut_advanceWrite ..).weaken (by simp), sameMemory_of_mems rfl⟩,
    ⟨_, runItems_jmp16 hs imm16 s.pc, ?_, (sameRegsBut_advanceWrite ..).weaken (by simp), sameMemory_of_mems rfl⟩,
    fun hff => ⟨s.advance, ?_, advance_pc hs.pci_lt, sameRegsBut_writeReg .., sameMemory_of_mems rfl⟩⟩
  · rw [Pseudo.expand, runItems_loadhi hs (hpc ▸ hs.pci_lt), hpc, seenReg_pci, mergeHigh_self, runItems_nil]
  · rw [advanceWrite_pc_of_pci hs, mergeLow_toNat]
  · exact runItems_word_unmapped hs (w := 0xFF000000) hff []

end Sys2Proof.Machine
end

section
/-! PROOFS. The cycle (40_cycle.md R100 to R108): one equation of the step per way its fetch and decode can end, the
frame of the advance, what an instruction does to PC, and the calls after a failing one. -/

namespace Sys2Proof.Machine

open Sys2Proof

/-! ## One step by its fetch and decode -/

section StepEquations

variable {s : State} {w : Word}

/-- A failing fetch ends the call with the state as it was (R100). -/
theorem step_of_memRead_fail {k : FailKind} (h : s.memRead s.pc = .fail k) : step s = .fault (.fetch k s.pc s) := by
  simp only [step, cycle, State.fetch, h, failFetch]

/-- A fetched word runs at the advanced state (R101). -/
theorem step_of_memRead_ok (h : s.memRead s.pc = .ok w) : step s = runWord w s.advance := by
  simp only [step, cycle, State.fetch, h]

theorem step_of_decode_ok {i : Instr} (h : s.memRead s.pc = .ok w) (hi : decode s.soc.opcodeMap w = .ok i) :
    step s = exec i s.advance := by
  simp only [step_of_memRead_ok h, runWord, advance_soc, hi]

theorem step_of_decode_error (hs : s.Inv) {e : DecodeError} (h : s.memRead s.pc = .ok w)
    (he : decode s.soc.opcodeMap w = .error e) : step s = .fault (.execute .decOpcode s.pc s.advance) := by
  simp only [step_of_memRead_ok h, runWord, advance_soc, he, failExecute, advance_instrAddr hs]

end StepEquations

/-- The advance moves PC to the next word and does nothing else (R101). -/
theorem advance_frame {s : State} (hs : s.Inv) :
    s.advance.pc = s.pc + 4 ∧ SameRegsBut [s.pci] s s.advance ∧ SameMemory s s.advance ∧ SameSetup s s.advance :=
  ⟨advance_pc hs.pci_lt, sameRegsBut_writeReg .., sameMemory_of_mems rfl, sameSetup_writeReg ..⟩

/-- Settles O20: the decoder finds no instruction, so the call fails at the advanced state. -/
theorem unmappedOpcodeOnlyAdvancesPc : Obligations.UnmappedOpcodeOnlyAdvancesPc := fun s _ hs hw hop =>
  ⟨s.advance, step_of_decode_error hs hw (decode_of_unmapped hop), advance_frame hs⟩

/-! ## The index check (R103) -/

/-- Every instruction's meaning is its effect behind the check of all the indices it references. -/
theorem exec_eq_validated (i : Instr) (s : State) : ∃ effect, exec i s = validated i.referenced s effect := by
  cases i <;> exact ⟨_, rfl⟩

theorem exec_of_invalid {i : Instr} {s : State} (h : ∃ r ∈ i.referenced, s.nRegs ≤ r.toNat) :
    exec i s = .fault (.execute .decRegister s.instrAddr s) := by
  obtain ⟨r, hr, hn⟩ := h
  obtain ⟨effect, heffect⟩ := exec_eq_validated i s
  exact heffect.trans (validated_of_invalid hr hn effect)

/-- Settles O10: the check comes first, and in a cycle it comes after the advance alone. -/
theorem invalidIndexFailsBeforeAnyEffect : Obligations.InvalidIndexFailsBeforeAnyEffect := by
  refine ⟨fun i s h => exec_of_invalid h, fun s w i hs hw hi h => ⟨s.advance, ?_, advance_frame hs⟩⟩
  rw [step_of_decode_ok hw hi, exec_of_invalid (by simpa using h), advance_instrAddr hs]

/-! ## What an instruction does to the registers and to PC -/

/-- An instruction that completes writes no register but those of the table's "written by" column (10_state.md
section 1). -/
theorem exec_next_regs {i : Instr} {s t : State} (h : exec i s = .next t) :
    SameRegsBut (regsWritten s.nRegs i) s t := by
  cases i with
  | loadli r imm16 =>
    obtain ⟨-, rfl⟩ := exec_loadli_next h
    exact sameRegsBut_writeReg ..
  | loadhi r imm16 =>
    obtain ⟨-, rfl⟩ := exec_loadhi_next h
    exact sameRegsBut_writeReg ..
  | add r1 r2 r3 =>
    obtain ⟨-, rfl⟩ := exec_add_next h
    exact sameRegsBut_writeReg ..
  | sub r1 r2 r3 =>
    obtain ⟨-, rfl⟩ := exec_sub_next h
    exact sameRegsBut_writeReg ..
  | store r1 r2 offset => exact (sameRegs_of_regs (memWrite_regs (exec_store_next h))).but
  | load r1 r2 offset =>
    obtain ⟨-, v, -, rfl⟩ := exec_load_next h
    exact sameRegsBut_writeReg ..
  | push r1 =>
    obtain ⟨-, hw⟩ := exec_push_next h
    exact (sameRegsBut_writeReg ..).comp (sameRegs_of_regs (memWrite_regs hw)).but
  | pop r1 =>
    obtain ⟨-, v, -, rfl⟩ := exec_pop_next h
    have hincr : SameRegsBut [s.spi] (s.writeReg r1.toNat v) (incrementSp (s.writeReg r1.toNat v)) :=
      writeReg_spi s r1.toNat v ▸ sameRegsBut_writeReg ..
    exact (sameRegsBut_writeReg ..).comp hincr

/-- Settles O17: the instruction runs at the advanced state and keeps PC, which is not among the registers it writes. -/
theorem controlFlowsOnlyThroughPcWrites : Obligations.ControlFlowsOnlyThroughPcWrites := by
  intro s t w i hs hw hi hpc h
  rw [step_of_decode_ok hw hi] at h
  have hkept : t.pc = s.advance.pc := (exec_next_regs h).pc (hs.writeReg ..) (by simpa using hpc)
  rw [hkept, advance_pc hs.pci_lt]

/-! ## The word at PC -/

/-- Four bytes at a backed, aligned place are read as the word they assemble to (R53, R55). -/
theorem memRead_of_bytes {s : State} {a : Word} {m l : Nat} {b0 b1 b2 b3 : Byte} (hw : WordAt s a m l)
    (h0 : s.byteAt m l = some b0) (h1 : s.byteAt m (l + 1) = some b1) (h2 : s.byteAt m (l + 2) = some b2)
    (h3 : s.byteAt m (l + 3) = some b3) : s.memRead a = .ok (assembleBytes s.soc.endian [b0, b1, b2, b3]) := by
  obtain ⟨v, hread, hv⟩ := memRead_of_wordAt hw
  have image : ∀ {k b}, k < 4 → s.byteAt m (l + k) = some b → imageByte s.soc.endian v k = b := fun hk hb =>
    Option.some.inj ((hv _ hk).symm.trans hb)
  rw [hread, ← assemble_split_word s.soc.endian v, splitBytes_word, image (k := 0) (by omega) h0, image (by omega) h1,
    image (by omega) h2, image (by omega) h3]

/-- Settles O18: the fetched word is the bytes' word, which decodes as they do. -/
theorem stepRunsTheDecodedInstruction : Obligations.StepRunsTheDecodedInstruction := by
  intro s m l b0 b1 b2 b3 i hs hw h0 h1 h2 h3 hdec
  exact ⟨s.advance, step_of_decode_ok (memRead_of_bytes hw h0 h1 h2 h3) (decodeBytes_ok hdec).1, advance_frame hs⟩

/-! ## Failing steps -/

/-- An instruction fails in phase EXECUTE alone (R104). -/
theorem exec_ne_fetch_fault {i : Instr} {s t : State} {k : FailKind} {a : Word} :
    exec i s ≠ .fault (.fetch k a t) := by
  intro h
  obtain ⟨-, hf⟩ | ⟨-, hstore | hload | hpush | hpop⟩ := exec_fault_cases h
  · exact nomatch hf
  · obtain ⟨_, _, _, _, -, -, hf⟩ := hstore
    exact nomatch hf
  · obtain ⟨_, _, _, _, -, -, hf⟩ := hload
    exact nomatch hf
  · obtain ⟨_, _, -, -, hf⟩ := hpush
    exact nomatch hf
  · obtain ⟨_, _, -, -, hf⟩ := hpop
    exact nomatch hf

/-- A FETCH failure is that of the Bus read at PC, with the state as it was (R100). -/
theorem step_fetch_fault {s t : State} {k : FailKind} {a : Word} (h : step s = .fault (.fetch k a t)) :
    s.memRead s.pc = .fail k ∧ a = s.pc ∧ t = s := by
  obtain ⟨k', hk, hf⟩ | ⟨w, e, -, -, hf⟩ | ⟨w, i, -, -, hexec⟩ := step_fault_cases h
  · obtain ⟨rfl, rfl, rfl⟩ := Fault.fetch.inj hf
    exact ⟨hk, rfl, rfl⟩
  · exact nomatch hf
  · exact absurd hexec exec_ne_fetch_fault

/-- Settles O19: the step follows the Bus read at PC, which in a legal state fails as `AccessFails` says. -/
theorem fetchFailureChangesNothing : Obligations.FetchFailureChangesNothing := by
  refine fun s hs => ⟨fun k h => step_of_memRead_fail (memRead_of_fails h), fun _ => step_of_memRead_ok,
    fun k a t h => ?_⟩
  obtain ⟨hk, hframe⟩ := step_fetch_fault h
  exact ⟨(memRead_fail_iff hs).mp hk, hframe⟩

theorem decrementSp_pc {s : State} (hs : s.Inv) : (decrementSp s).pc = s.pc :=
  (sameRegsBut_writeReg ..).pc hs (by simpa using hs.spi_ne_pci.symm)

/-- An EXECUTE failure leaves PC advanced (R163). -/
theorem step_execute_fault_pc {s t : State} (hs : s.Inv) {k : FailKind} {a : Word}
    (h : step s = .fault (.execute k a t)) : t.pc = s.pc + 4 := by
  have hadvance : s.advance.pc = s.pc + 4 := advance_pc hs.pci_lt
  obtain ⟨k', -, hf⟩ | ⟨w, e, -, -, hf⟩ | ⟨w, i, -, -, hexec⟩ := step_fault_cases h
  · exact nomatch hf
  · exact (Fault.execute.inj hf).2.2 ▸ hadvance
  · obtain rfl | ⟨-, rfl⟩ := exec_fault_after hexec
    · exact hadvance
    · exact (decrementSp_pc (hs.writeReg ..)).trans hadvance

/-! ## Calls after a failure (R106) -/

/-- The fault behind a call that fails in a phase. -/
def faultOf : Phase → FailKind → Word → State → Fault
  | .fetch => .fetch
  | .execute => .execute

/-- The step of a failing call faults with the phase, kind and address the call answers, and the state it leaves (R161). -/
theorem step_of_failure {s : State} {p : Phase} {k : FailKind} {a : Word}
    (h : (execute s).result = .failure p k a) : step s = .fault (faultOf p k a (execute s).after) := by
  unfold execute at h ⊢
  cases hstep : step s with
  | next t => simp [hstep, callOf] at h
  | fault f =>
    cases f with
    | fetch k' a' t =>
      obtain ⟨rfl, rfl, rfl⟩ : Phase.fetch = p ∧ k' = k ∧ a' = a := by simpa [hstep, callOf] using h
      rfl
    | execute k' a' t =>
      obtain ⟨rfl, rfl, rfl⟩ : Phase.execute = p ∧ k' = k ∧ a' = a := by simpa [hstep, callOf] using h
      rfl
  | refused r => simp [hstep, callOf] at h

/-- A call that leaves the state as it was does so however often it is repeated. -/
theorem callTimes_of_after_eq {s : State} (h : (execute s).after = s) (n : Nat) : callTimes n s = s := by
  induction n with
  | zero => rfl
  | succ n ih => rw [callTimes_succ, h, ih]

/-- Settles O51: a FETCH failure leaves the state, so every further call is the same one; an EXECUTE failure leaves PC
advanced. -/
theorem callsAreIndependent : Obligations.CallsAreIndependent := by
  refine fun s hs => ⟨fun k a h n => ?_, fun k a h => ?_⟩
  · obtain ⟨-, -, hafter⟩ := step_fetch_fault (step_of_failure h)
    have hsame := callTimes_of_after_eq hafter n
    refine ⟨hsame, ?_⟩
    rw [hsame, execute, step_of_failure h, hafter]
    rfl
  · exact ⟨step_execute_fault_pc hs (step_of_failure h), fun n => callTimes_succ n s⟩

end Sys2Proof.Machine
end

section
/-! PROOFS. LOADLI and LOADHI (41_immediate.md R120, R121): with a valid register each is one register write, of a merge
whose value is the two halves as numbers. -/

namespace Sys2Proof.Machine

open Sys2Proof

/-- LOADHI's merge as a number (R121). -/
theorem mergeHigh_toNat (old : Word) (imm16 : Imm16) :
    (mergeHigh old imm16).toNat = imm16.toNat * 65536 + old.toNat % 65536 := by
  have hlow : (old.extractLsb' 0 16).toNat = old.toNat % 65536 := by
    rw [BitVec.extractLsb'_toNat, Nat.shiftRight_zero]
  rw [mergeHigh_eq, BitVec.toNat_append, ← Nat.shiftLeft_add_eq_or_of_lt (BitVec.isLt _), Nat.shiftLeft_eq, hlow]

/-- A register write leaves the other registers, the memory and the setup alone. -/
theorem writeReg_frame (s : State) (i : Nat) (v : Word) :
    SameRegsBut [i] s (s.writeReg i v) ∧ SameMemory s (s.writeReg i v) ∧ SameSetup s (s.writeReg i v) :=
  ⟨sameRegsBut_writeReg s i v, sameMemory_of_mems rfl, sameSetup_writeReg s i v⟩

/-- Under the default map too, a canonical word decodes to its instruction (R84, R86). -/
theorem decode_encode_default (i : Instr) : decode .default (encode .default i) = .ok i :=
  decode_encode (by decide) i

section Meanings

variable {s : State} {r : RegIndex} (hr : r.toNat < s.nRegs) (imm16 : Imm16)

include hr

theorem exec_loadli_of_valid :
    exec (.loadli r imm16) s = .next (s.writeReg r.toNat (mergeLow (s.readReg r.toNat) imm16)) :=
  validated_of_valid (by simpa using hr) _

theorem exec_loadhi_of_valid :
    exec (.loadhi r imm16) s = .next (s.writeReg r.toNat (mergeHigh (s.readReg r.toNat) imm16)) :=
  validated_of_valid (by simpa using hr) _

end Meanings

/-- Settles O1: the word is LOADLI's canonical one, and the instruction is the check and then one register write. -/
theorem loadliReplacesLowHalf : Obligations.LoadliReplacesLowHalf := by
  refine fun s r imm16 => ⟨decode_encode_default (.loadli r imm16), fun hr => ?_,
    fun hr => exec_of_invalid ⟨r, List.mem_singleton_self r, hr⟩⟩
  refine ⟨_, exec_loadli_of_valid hr imm16, ?_, writeReg_frame ..⟩
  rw [readReg_writeReg_same hr, mergeLow_toNat]

/-- Settles O2: the word is LOADHI's canonical one, and the instruction is the check and then one register write. -/
theorem loadhiReplacesHighHalf : Obligations.LoadhiReplacesHighHalf := by
  refine fun s r imm16 => ⟨decode_encode_default (.loadhi r imm16), fun hr => ?_,
    fun hr => exec_of_invalid ⟨r, List.mem_singleton_self r, hr⟩⟩
  refine ⟨_, exec_loadhi_of_valid hr imm16, ?_, writeReg_frame ..⟩
  rw [readReg_writeReg_same hr, mergeHigh_toNat]

end Sys2Proof.Machine
end

section
/-! PROOFS. ADD and SUB (42_arith.md R130, R131): with valid registers each is one register write, of the sum or the
difference of the two sources as they were, so aliasing the destination with a source needs no case of its own. -/

namespace Sys2Proof.Machine

open Sys2Proof

theorem aluAdd_toNat (a b : Word) : (aluAdd a b).toNat = (a.toNat + b.toNat) % 2 ^ 32 := BitVec.toNat_add a b

/-- The difference as a number, with the minuend first (R131). -/
theorem aluSub_toNat (a b : Word) : (aluSub a b).toNat = (a.toNat + 2 ^ 32 - b.toNat) % 2 ^ 32 := by
  have hb : b.toNat ≤ 2 ^ 32 := b.isLt.le
  rw [aluSub, BitVec.toNat_sub, Nat.add_comm, Nat.add_sub_assoc hb]

section ThreeRegisters

variable {s : State} {r1 r2 r3 : RegIndex}

/-- The check's failing clause, register by register: R103 over the three registers of ADD and SUB. -/
theorem exists_invalid_of_three (h : s.nRegs ≤ r1.toNat ∨ s.nRegs ≤ r2.toNat ∨ s.nRegs ≤ r3.toNat) :
    ∃ r ∈ [r1, r2, r3], s.nRegs ≤ r.toNat := by
  simpa using h

variable (h1 : r1.toNat < s.nRegs) (h2 : r2.toNat < s.nRegs) (h3 : r3.toNat < s.nRegs)

include h1 h2 h3

theorem exec_add_of_valid :
    exec (.add r1 r2 r3) s = .next (s.writeReg r3.toNat (aluAdd (s.readReg r1.toNat) (s.readReg r2.toNat))) :=
  validated_of_valid (by simp [h1, h2, h3]) _

theorem exec_sub_of_valid :
    exec (.sub r1 r2 r3) s = .next (s.writeReg r3.toNat (aluSub (s.readReg r1.toNat) (s.readReg r2.toNat))) :=
  validated_of_valid (by simp [h1, h2, h3]) _

end ThreeRegisters

/-- Settles O3: the word is ADD's canonical one, and the instruction is the check and then one register write. -/
theorem addWraps : Obligations.AddWraps := by
  refine fun s r1 r2 r3 => ⟨decode_encode_default (.add r1 r2 r3), fun h1 h2 h3 => ?_,
    fun h => exec_of_invalid (exists_invalid_of_three h)⟩
  refine ⟨_, exec_add_of_valid h1 h2 h3, ?_, writeReg_frame ..⟩
  rw [readReg_writeReg_same h3, aluAdd_toNat]

/-- Settles O4: the word is SUB's canonical one, and the instruction is the check and then one register write. -/
theorem subWraps : Obligations.SubWraps := by
  refine fun s r1 r2 r3 => ⟨decode_encode_default (.sub r1 r2 r3), fun h1 h2 h3 => ?_,
    fun h => exec_of_invalid (exists_invalid_of_three h)⟩
  refine ⟨_, exec_sub_of_valid h1 h2 h3, ?_, writeReg_frame ..⟩
  rw [readReg_writeReg_same h3, aluSub_toNat]

end Sys2Proof.Machine
end

section
/-! PROOFS. STORE and LOAD (43_loadstore.md R139 to R141), and what a failing access leaves of the four instructions that
make one (R163): with valid registers STORE is `storeWord` and LOAD and POP are `loadWord` at their address, which the
Bus's own laws decide. -/

namespace Sys2Proof.Machine

open Sys2Proof

/-! ## The effective address -/

/-- The extended offset as a number is the signed offset modulo 2^32 (R8). -/
theorem sext32_toNat (v : Byte) : ((sext32 v).toNat : Int) = v.toInt % 2 ^ 32 := by
  rw [sext32_eq, BitVec.signExtend, BitVec.toNat_ofInt]
  exact Int.toNat_of_nonneg (Int.emod_nonneg _ (by decide))

/-- Settles O5: the ALU's sum, with the extended offset as the signed one. -/
theorem effectiveAddressIsBasePlusOffset : Obligations.EffectiveAddressIsBasePlusOffset := by
  intro base offset
  calc ((effectiveAddress base offset).toNat : Int)
      = ((base.toNat : Int) + (sext32 offset).toNat) % 2 ^ 32 := by
        rw [effectiveAddress, aluAdd_toNat]; push_cast; rfl
    _ = ((base.toNat : Int) + offset.toInt) % 2 ^ 32 := by rw [sext32_toNat, Int.add_emod_emod]

/-! ## An access that completes -/

section Access

variable {s : State} {ea : Word}

theorem storeWord_of_memWrite_ok {t : State} {v : Word} (h : s.memWrite ea v = .ok t) : storeWord ea v s = .next t := by
  simp only [storeWord, h]

theorem loadWord_of_memRead_ok {v : Word} (h : s.memRead ea = .ok v) (r : RegIndex) (thenDo : State → State) :
    loadWord ea r s thenDo = .next (thenDo (s.writeReg r.toNat v)) := by
  simp only [loadWord, h]

/-! ## An access that fails -/

variable {k : FailKind}

theorem storeWord_of_memWrite_fail {v : Word} (h : s.memWrite ea v = .fail k) :
    storeWord ea v s = .fault (.execute k ea s) := by
  simp only [storeWord, h, failExecute]

theorem loadWord_of_memRead_fail (h : s.memRead ea = .fail k) (r : RegIndex) (thenDo : State → State) :
    loadWord ea r s thenDo = .fault (.execute k ea s) := by
  simp only [loadWord, h, failExecute]

/-- A register write changes nothing that an access fails for. -/
theorem AccessFails.writeReg (h : AccessFails s ea k) (i : Nat) (v : Word) : AccessFails (s.writeReg i v) ea k := by
  cases h with
  | routing h => exact .routing h
  | notAccessible h => exact .notAccessible h
  | misaligned m d h hd hl => exact .misaligned m d h hd hl
  | bounds m d h hd hl hb => exact .bounds m d h hd hl hb

end Access

/-! ## The memory instructions with valid registers -/

section Meanings

variable {s : State} {r1 : RegIndex} (h1 : r1.toNat < s.nRegs)

include h1

theorem exec_push_of_valid : exec (.push r1) s = pushStore r1 (decrementSp s) :=
  validated_of_valid (by simpa using h1) _

theorem exec_pop_of_valid : exec (.pop r1) s = loadWord s.sp r1 s incrementSp :=
  validated_of_valid (by simpa using h1) _

variable {r2 : RegIndex} (h2 : r2.toNat < s.nRegs) (offset : Byte)

include h2

theorem exec_store_of_valid : exec (.store r1 r2 offset) s =
    storeWord (effectiveAddress (s.readReg r1.toNat) offset) (s.readReg r2.toNat) s :=
  validated_of_valid (by simp [h1, h2]) _

theorem exec_load_of_valid : exec (.load r1 r2 offset) s =
    loadWord (effectiveAddress (s.readReg r1.toNat) offset) r2 s id :=
  validated_of_valid (by simp [h1, h2]) _

end Meanings

/-- Settles O6: the instruction is one Bus write, which completes at a backed word and changes that word alone. -/
theorem storeWritesOneWord : Obligations.StoreWritesOneWord := by
  intro s r1 r2 offset m l hs h1 h2 hw
  obtain ⟨t, hwrite, heffect⟩ := memWrite_of_wordAt hs (s.readReg r2.toNat) hw
  exact ⟨t, (exec_store_of_valid h1 h2 offset).trans (storeWord_of_memWrite_ok hwrite), heffect⟩

/-- Settles O7: the instruction is one Bus read, which completes at a backed word, and then one register write. -/
theorem loadReadsOneWord : Obligations.LoadReadsOneWord := by
  intro s r1 r2 offset m l h1 h2 hw
  obtain ⟨v, hread, hword⟩ := memRead_of_wordAt hw
  exact ⟨_, v, (exec_load_of_valid h1 h2 offset).trans (loadWord_of_memRead_ok hread r2 id), hword,
    readReg_writeReg_same h2 v, writeReg_frame ..⟩

/-- PUSH's failing store comes after its decrement, which stays (R150, D14). -/
theorem exec_push_of_accessFails {s : State} (hs : s.Inv) {r1 : RegIndex} (h1 : r1.toNat < s.nRegs) {k : FailKind}
    (h : AccessFails s (s.sp - 4) k) : exec (.push r1) s = .fault (.execute k (s.sp - 4) (decrementSp s)) := by
  have hfails : AccessFails (decrementSp s) (s.sp - 4) k := h.writeReg ..
  rw [exec_push_of_valid h1, pushStore, decrementSp_sp hs.spi_lt]
  exact storeWord_of_memWrite_fail (memWrite_of_fails _ hfails)

/-- Settles O11: the Bus answers the kind that applies, before LOAD and POP write a register, and for PUSH after the
decrement of SP. -/
theorem failingAccessFailsTheInstruction : Obligations.FailingAccessFailsTheInstruction := by
  refine fun s r1 r2 offset k hs h1 h2 => ⟨fun h => ⟨?_, ?_⟩, fun h => ?_, fun h => ?_⟩
  · exact (exec_store_of_valid h1 h2 offset).trans (storeWord_of_memWrite_fail (memWrite_of_fails _ h))
  · exact (exec_load_of_valid h1 h2 offset).trans (loadWord_of_memRead_fail (memRead_of_fails h) r2 id)
  · exact (exec_pop_of_valid h1).trans (loadWord_of_memRead_fail (memRead_of_fails h) r1 incrementSp)
  · exact ⟨decrementSp s, exec_push_of_accessFails hs h1 h, decrementSp_sp hs.spi_lt, writeReg_frame ..⟩

end Sys2Proof.Machine
end

section
/-! PROOFS. PUSH and POP (44_stack.md R150, R151): PUSH stores at the decremented SP what its register reads there, and
POP increments SP as its load leaves it, so the two cases with SP as the operand come from the order alone (D14). -/

namespace Sys2Proof.Machine

open Sys2Proof

/-- Settles O8: the value stored is read after the decrement, which for PUSH SP is the new SP. -/
theorem pushStoresBelowSp : Obligations.PushStoresBelowSp := by
  intro s r1 m l hs h1 hw
  obtain ⟨t, hexec, hsp, hregs, hword, hbytes, hsetup⟩ := exec_push_of_wordAt hs h1 hw
  rw [decrementSp_readReg hs.spi_lt] at hword
  exact ⟨t, hexec, hsp, hword, hbytes, hregs, hsetup⟩

section LoadThenIncrement

variable {s : State} (hs : s.Inv) {i : Nat} (hi : i < s.nRegs) (v : Word)

include hs hi

/-- SP after the load is the loaded word when the load went to SP, and then passes the word (R151). -/
theorem incrementSp_writeReg_sp : (incrementSp (s.writeReg i v)).sp = (if i = s.spi then v else s.sp) + 4 := by
  rw [incrementSp_sp (hs.writeReg i v).spi_lt, State.sp, writeReg_spi, readReg_writeReg hi]
  simp only [eq_comm (a := s.spi), State.sp]

theorem incrementSp_writeReg_readReg (hne : i ≠ s.spi) : (incrementSp (s.writeReg i v)).readReg i = v := by
  rw [incrementSp_readReg (hs.writeReg i v).spi_lt, writeReg_spi, if_neg hne, readReg_writeReg_same hi]

end LoadThenIncrement

/-- The increment writes SP alone. -/
theorem incrementSp_frame (s : State) :
    SameRegsBut [s.spi] s (incrementSp s) ∧ SameMemory s (incrementSp s) ∧ SameSetup s (incrementSp s) :=
  writeReg_frame ..

/-- The load and the increment leave the other registers, the memory and the setup alone. -/
theorem incrementSp_writeReg_frame (s : State) (i : Nat) (v : Word) :
    SameRegsBut [i, s.spi] s (incrementSp (s.writeReg i v)) ∧ SameMemory s (incrementSp (s.writeReg i v)) ∧
      SameSetup s (incrementSp (s.writeReg i v)) := by
  obtain ⟨hregs, hmem, hsetup⟩ := writeReg_frame s i v
  obtain ⟨hregs', hmem', hsetup'⟩ := incrementSp_frame (s.writeReg i v)
  rw [writeReg_spi] at hregs'
  exact ⟨hregs.comp hregs', fun m l => (hmem' m l).trans (hmem m l), hsetup.trans hsetup'⟩

/-- Settles O9: the instruction is one Bus read, which completes at a backed word, one register write, and then the
increment of SP. -/
theorem popLoadsFromSp : Obligations.PopLoadsFromSp := by
  intro s r1 m l hs h1 hw
  obtain ⟨v, hread, hword⟩ := memRead_of_wordAt hw
  exact ⟨_, v, exec_pop_of_memRead h1 hread, hword, incrementSp_writeReg_sp hs h1 v,
    incrementSp_writeReg_readReg hs h1 v, incrementSp_writeReg_frame s r1.toNat v⟩

end Sys2Proof.Machine
end

section
/-! PROOFS. Failing calls (60_exceptions.md R161 to R165): the kinds an instruction fails with, that nothing is refused,
the cause of every failing cycle with the state it leaves, and that a run ends at its first failing call. -/

namespace Sys2Proof.Machine

open Sys2Proof

/-! ## The kinds of R162's table -/

theorem decRegister_mem_failKinds (i : Instr) : .decRegister ∈ failKinds i := by
  cases i <;> exact List.mem_cons_self

/-- An instruction fails in phase EXECUTE with a kind of its row in R162's table: the index check's, or the Bus's for
the four instructions that make an access. -/
theorem exec_fault_kind {i : Instr} {s : State} {f : Fault} (h : exec i s = .fault f) :
    ∃ k a t, f = .execute k a t ∧ k ∈ failKinds i := by
  obtain ⟨-, rfl⟩ | ⟨-, hstore | hload | hpush | hpop⟩ := exec_fault_cases h
  · exact ⟨_, _, _, rfl, decRegister_mem_failKinds i⟩
  · obtain ⟨r1, r2, offset, k, rfl, hk, rfl⟩ := hstore
    exact ⟨_, _, _, rfl, List.mem_cons_of_mem _ (memRead_fail_kind hk)⟩
  · obtain ⟨r1, r2, offset, k, rfl, hk, rfl⟩ := hload
    exact ⟨_, _, _, rfl, List.mem_cons_of_mem _ (memRead_fail_kind hk)⟩
  · obtain ⟨r1, k, rfl, hk, rfl⟩ := hpush
    exact ⟨_, _, _, rfl, List.mem_cons_of_mem _ (memRead_fail_kind hk)⟩
  · obtain ⟨r1, k, rfl, hk, rfl⟩ := hpop
    exact ⟨_, _, _, rfl, List.mem_cons_of_mem _ (memRead_fail_kind hk)⟩

/-! ## Nothing is refused (R104) -/

section Refusal

variable {s : State} {r : Refusal}

theorem validated_ne_refused {rs : List RegIndex} {effect : Out} (h : effect ≠ .refused r) :
    validated rs s effect ≠ .refused r := by
  intro hr
  obtain ⟨-, he⟩ | ⟨-, he⟩ := validated_cases hr
  · exact h he.symm
  · exact nomatch he

theorem storeWord_ne_refused {ea v : Word} : storeWord ea v s ≠ .refused r := by
  intro h
  obtain ⟨_, -, ho⟩ | ⟨_, -, ho⟩ := storeWord_cases h
  · exact nomatch ho
  · exact nomatch ho

theorem loadWord_ne_refused {ea : Word} {d : RegIndex} {thenDo : State → State} :
    loadWord ea d s thenDo ≠ .refused r := by
  intro h
  obtain ⟨_, -, ho⟩ | ⟨_, -, ho⟩ := loadWord_cases h
  · exact nomatch ho
  · exact nomatch ho

theorem exec_ne_refused (i : Instr) : exec i s ≠ .refused r := by
  cases i with
  | loadli d imm16 => exact validated_ne_refused nofun
  | loadhi d imm16 => exact validated_ne_refused nofun
  | add r1 r2 r3 => exact validated_ne_refused nofun
  | sub r1 r2 r3 => exact validated_ne_refused nofun
  | store r1 r2 offset => exact validated_ne_refused storeWord_ne_refused
  | load r1 r2 offset => exact validated_ne_refused loadWord_ne_refused
  | push r1 => exact validated_ne_refused storeWord_ne_refused
  | pop r1 => exact validated_ne_refused loadWord_ne_refused

theorem runWord_ne_refused (w : Word) : runWord w s ≠ .refused r := by
  unfold runWord
  split
  · exact nofun
  · exact exec_ne_refused _

theorem step_ne_refused : step s ≠ .refused r := by
  cases h : s.memRead s.pc with
  | fail k => exact step_of_memRead_fail h ▸ nofun
  | ok w => exact step_of_memRead_ok h ▸ runWord_ne_refused w

end Refusal

/-- Settles O12: the ways an instruction can fail, and that each meaning completes or fails. -/
theorem failureKindsAreThoseListed : Obligations.FailureKindsAreThoseListed :=
  ⟨fun _ _ _ h => exec_fault_kind h, fun i _ _ => exec_ne_refused i, fun _ _ => step_ne_refused⟩

/-! ## What a failing cycle leaves (R163) -/

section FailingCycle

variable {s t : State} {k : FailKind} {a : Word}

/-- The state an EXECUTE failure leaves: PC advanced, and at most SP decremented. -/
theorem step_execute_fault_after (h : step s = .fault (.execute k a t)) :
    t = s.advance ∨ t = decrementSp s.advance := by
  obtain ⟨_, -, hf⟩ | ⟨_, _, -, -, hf⟩ | ⟨_, _, -, -, hexec⟩ := step_fault_cases h
  · exact nomatch hf
  · exact .inl (Fault.execute.inj hf).2.2
  · exact (exec_fault_after hexec).imp_right And.right

theorem step_execute_fault_frame (hs : s.Inv) (h : step s = .fault (.execute k a t)) :
    SameRegsBut [s.pci, s.spi] s t ∧ SameMemory s t ∧ SameSetup s t := by
  obtain ⟨-, hregs, hmem, hsetup⟩ := advance_frame hs
  obtain rfl | rfl := step_execute_fault_after h
  · exact ⟨hregs.weaken (by simp), hmem, hsetup⟩
  · have hsp : SameRegsBut [s.spi] s.advance (decrementSp s.advance) := advance_spi s ▸ sameRegsBut_writeReg ..
    exact ⟨hregs.comp hsp, sameMemory_of_mems rfl, hsetup.trans (sameSetup_writeReg ..)⟩

/-! ## Why a cycle fails -/

/-- A word that does not decode under an injective map has an unmapped opcode byte (R85). -/
theorem unmapped_of_decode_error {m : OpcodeMap} (hm : m.wf = true) {w : Word} {e : DecodeError}
    (h : decode m w = .error e) : opcodeField w ∉ m.codes := by
  intro hmem
  obtain ⟨i, hi⟩ := (decode_ok_iff hm).mpr hmem
  exact nomatch h.symm.trans hi

theorem effectiveAddress_advance (hs : s.Inv) (r : RegIndex) (offset : Byte) :
    effectiveAddress (s.advance.readReg r.toNat) offset = effectiveAddress (s.seenReg r.toNat) offset := by
  rw [advance_readReg hs.pci_lt]

theorem decrementSp_advance_sp (hs : s.Inv) : (decrementSp s.advance).sp = s.sp - 4 := by
  have hadvance : s.advance.Inv := hs.writeReg ..
  rw [decrementSp_sp hadvance.spi_lt, advance_sp hs]

/-- Why an instruction fails in a cycle that starts at `s`, and the SP it leaves: an invalid index, or its one Bus
access, with SP decremented for PUSH alone (R150, R163). -/
theorem exec_advance_fault (hs : s.Inv) {i : Instr} (h : exec i s.advance = .fault (.execute k a t)) :
    (k = .decRegister ∧ (∃ r ∈ i.referenced, s.nRegs ≤ r.toNat) ∧ a = s.pc ∧ t.sp = s.sp) ∨
      (AccessFails s a k ∧ accessAddr s i = some a ∧ (∀ r ∈ i.referenced, r.toNat < s.nRegs) ∧
        ((∃ r1, i = .push r1) → t.sp = s.sp - 4) ∧ ((∀ r1, i ≠ .push r1) → t.sp = s.sp)) := by
  obtain ⟨hr, hf⟩ | ⟨hv, hcases⟩ := exec_fault_cases h
  · obtain ⟨rfl, rfl, rfl⟩ := Fault.execute.inj hf
    exact .inl ⟨rfl, by simpa using hr, advance_instrAddr hs, advance_sp hs⟩
  · have hvalid : ∀ r ∈ i.referenced, r.toNat < s.nRegs := by simpa using hv
    right
    obtain hstore | hload | hpush | hpop := hcases
    · obtain ⟨r1, r2, offset, _, rfl, hk, hf⟩ := hstore
      obtain ⟨rfl, rfl, rfl⟩ := Fault.execute.inj hf
      have hea := effectiveAddress_advance hs r1 offset
      exact ⟨(memRead_fail_iff hs).mp hk, congrArg some hea.symm, hvalid, nofun, fun _ => advance_sp hs⟩
    · obtain ⟨r1, r2, offset, _, rfl, hk, hf⟩ := hload
      obtain ⟨rfl, rfl, rfl⟩ := Fault.execute.inj hf
      have hea := effectiveAddress_advance hs r1 offset
      exact ⟨(memRead_fail_iff hs).mp hk, congrArg some hea.symm, hvalid, nofun, fun _ => advance_sp hs⟩
    · obtain ⟨r1, _, rfl, hk, hf⟩ := hpush
      obtain ⟨rfl, rfl, rfl⟩ := Fault.execute.inj hf
      have hsp := decrementSp_advance_sp hs
      exact ⟨(memRead_fail_iff hs).mp hk, congrArg some hsp.symm, hvalid, fun _ => hsp, fun hn => absurd rfl (hn r1)⟩
    · obtain ⟨r1, _, rfl, hk, hf⟩ := hpop
      obtain ⟨rfl, rfl, rfl⟩ := Fault.execute.inj hf
      have hsp := advance_sp hs
      exact ⟨(memRead_fail_iff hs).mp hk, congrArg some hsp.symm, hvalid, nofun, fun _ => hsp⟩

end FailingCycle

/-- Settles O13: the fetch's failure is that of the Bus read at PC; any other is the decoder's or the instruction's, at
the advanced state, and so leaves PC advanced and at most SP decremented. -/
theorem failuresArePrecise : Obligations.FailuresArePrecise := by
  intro s hs
  obtain ⟨-, -, hfetch⟩ := fetchFailureChangesNothing s hs
  refine ⟨hfetch, fun k a t h => ⟨step_execute_fault_pc hs h, ?_⟩⟩
  obtain ⟨hregs, hmem, hsetup⟩ := step_execute_fault_frame hs h
  refine ⟨hregs, hmem, hsetup, ?_⟩
  obtain ⟨_, -, hf⟩ | ⟨w, e, hw, he, hf⟩ | ⟨w, i, hw, hi, hexec⟩ := step_fault_cases h
  · exact nomatch hf
  · obtain ⟨rfl, rfl, rfl⟩ := Fault.execute.inj hf
    exact ⟨w, hw, .inl ⟨rfl, unmapped_of_decode_error hs.opcodes he, advance_instrAddr hs, advance_sp hs⟩⟩
  · exact ⟨w, hw, .inr ⟨i, hi, exec_advance_fault hs hexec⟩⟩

/-! ## Runs (R165) -/

section Runs

variable {s t : State} {f : Fault}

theorem hostRun_succ_of_next (h : step s = .next t) (k : Nat) : hostRun (k + 1) s = hostRun k t := by
  rw [hostRun_succ, h]

theorem hostRun_succ_of_fault (h : step s = .fault f) (k : Nat) : hostRun (k + 1) s = .fault f := by
  rw [hostRun_succ, h]

theorem execute_of_next (h : step s = .next t) : execute s = { result := .success, after := t } := by
  rw [execute, h, callOf]

theorem execute_of_fault (h : step s = .fault f) : execute s = callOf s (.fault f) := by
  rw [execute, h]

theorem callOf_fault_result_ne_success (s : State) (f : Fault) : (callOf s (.fault f)).result ≠ .success := by
  cases f <;> exact nofun

/-- A call halts the CPU exactly when it fails (R165). -/
theorem Call.halted_iff {c : Call} : c.halted = true ↔ c.result ≠ .success := by
  simp [Call.halted, CallResult.succeeded]

theorem runCalls_succ_of_next (h : step s = .next t) (k : Nat) :
    runCalls (k + 1) s =
      { calls := (runCalls k t).calls + 1, result := (runCalls k t).result, after := (runCalls k t).after } := by
  rw [runCalls, execute_of_next h, if_neg (by simp [Call.halted_iff])]

theorem runCalls_succ_of_fault (h : step s = .fault f) (k : Nat) :
    runCalls (k + 1) s =
      { calls := 1, result := (callOf s (.fault f)).result, after := (callOf s (.fault f)).after } := by
  rw [runCalls, execute_of_fault h, if_pos (Call.halted_iff.mpr (callOf_fault_result_ne_success s f))]

/-- The two ends of a run of at most `k` calls, as the host's loop and as its calls show them: all `k` calls succeed, or
the first failing one ends it. -/
theorem run_cases (k : Nat) (s : State) :
    (∃ t, hostRun k s = .next t ∧ runCalls k s = { calls := k, result := .success, after := t }) ∨
      (∃ f, hostRun k s = .fault f ∧ (runCalls k s).result = (callOf s (.fault f)).result ∧
        (runCalls k s).after = (callOf s (.fault f)).after) := by
  induction k generalizing s with
  | zero => exact .inl ⟨s, rfl, rfl⟩
  | succ k ih =>
    cases h : step s with
    | next u =>
      rw [hostRun_succ_of_next h, runCalls_succ_of_next h]
      obtain ⟨t, hhost, hcalls⟩ | ⟨f, hhost, hend⟩ := ih u
      · exact .inl ⟨t, hhost, by rw [hcalls]⟩
      · exact .inr ⟨f, hhost, callOf_fault u s f ▸ hend⟩
    | fault f => exact .inr ⟨f, hostRun_succ_of_fault h k, by simp [runCalls_succ_of_fault h]⟩
    | refused r => exact absurd h step_ne_refused

end Runs

/-- Settles O50: the loop and the calls have the same two ends, and a fault's call is no success. -/
theorem runEndsAtTheFirstFailure : Obligations.RunEndsAtTheFirstFailure := by
  intro k s
  obtain ⟨t, hhost, hcalls⟩ | ⟨f, hhost, hend⟩ := run_cases k s
  · exact ⟨fun u => by simp [hhost, hcalls], fun f hf => absurd (hhost.symm.trans hf) nofun,
      iff_of_true ⟨t, hhost⟩ (by rw [hcalls])⟩
  · have hfail : (runCalls k s).result ≠ .success := hend.1 ▸ callOf_fault_result_ne_success s f
    have hstops : ∀ u, hostRun k s ≠ .next u := fun u hu => nomatch hhost.symm.trans hu
    refine ⟨fun u => iff_of_false (hstops u) fun hu => hfail (congrArg RunEnd.result hu), fun g hg => ?_,
      iff_of_false (fun ⟨u, hu⟩ => hstops u hu) hfail⟩
    obtain rfl : f = g := Host.Outcome.fault.inj (hhost.symm.trans hg)
    exact hend

end Sys2Proof.Machine
end

section
/-! PROOFS. Reset, boot and the loader (70_reset_and_hazards.md R190 to R193): what the reset of one device writes, a
system reset that completes as one change of the state, and the way from construction to the reset state and to the
first fetched word. -/

namespace Sys2Proof.Machine

open Sys2Proof

/-! ## One device (R190, R191) -/

/-- A register file after CPU reset, register by register: the sentinel below PC and the reset vector in PC (R190). -/
theorem readReg_of_resetRegs {s t : State} (hs : s.Inv) (h : t.regs = resetRegs s.nRegs s.soc) :
    (∀ i, i < s.pci → t.readReg i = s.soc.regSentinel) ∧ t.pc = s.soc.resetVector := by
  have hlen : t.nRegs = s.nRegs := (congrArg List.length h).trans (cpuReset_nRegs (Nat.one_le_of_lt hs.regs_low))
  refine ⟨fun i hi => ?_, ?_⟩
  · simp only [State.pci] at hi
    simp [State.readReg, h, resetRegs, List.getElem?_append_left, hi]
  · simp [State.pc, State.pci, hlen, State.readReg, h, resetRegs]

theorem sameSetup_cpuReset {s : State} (h : 1 ≤ s.nRegs) : SameSetup s (cpuReset s) :=
  ⟨rfl, rfl, cpuReset_nRegs h, rfl⟩

/-- Settles O44: the CPU's reset is one write of the whole register file. -/
theorem cpuResetSetsEveryRegister : Obligations.CpuResetSetsEveryRegister := by
  intro s hs
  have hn : 1 ≤ s.nRegs := Nat.one_le_of_lt hs.regs_low
  obtain ⟨hregs, hpc⟩ := readReg_of_resetRegs (t := cpuReset s) hs rfl
  exact ⟨cpuReset s, rfl, cpuReset_nRegs hn, hregs, hpc, sameMemory_of_mems rfl, sameSetup_cpuReset hn⟩

theorem devReset_memory {s : State} {m : Nat} {d : Memory} (hd : s.mems[m]? = some d) :
    devReset (.memory m) s = .ok (s.setMem m d.reset) := by
  simp only [devReset, hd]

/-- Every byte of a memory device that has been reset is its fill (R191). -/
theorem byteAt_of_mems_reset {t : State} {m : Nat} {d : Memory} (h : t.mems[m]? = some d.reset) {l : Nat}
    (hl : l < d.size) : t.byteAt m l = some d.fill := by
  rw [byteAt_of_mems_getElem? h, reset_readByte]
  exact if_pos hl

/-- Settles O45: the reset replaces the one device by its reset form. -/
theorem memoryResetFillsEveryByte : Obligations.MemoryResetFillsEveryByte := by
  intro s m d hd
  have hreset : (s.setMem m d.reset).mems[m]? = some d.reset := List.getElem?_set_self (mems_lt hd)
  exact ⟨_, devReset_memory hd, fun l hl => byteAt_of_mems_reset hreset hl,
    fun m' l hm => setMem_byteAt_ne _ hm l, sameRegs_of_regs rfl, sameSetup_setMem hd rfl rfl rfl⟩

/-! ## System reset (R192) -/

section ResetContexts

variable {c : DeviceContext} {s t : State}

theorem resetContexts_of_devReset_ok (h : devReset c.device s = .ok t) (cs : List DeviceContext) :
    resetContexts (c :: cs) s = resetContexts cs t := by
  simp only [resetContexts, h]

theorem resetContexts_of_devReset_fail {k : FailKind} (h : devReset c.device s = .fail k) (cs : List DeviceContext) :
    resetContexts (c :: cs) s = { result := .fail .resetFailed, after := s } := by
  simp only [resetContexts, h]

/-- Contexts that all reset hand the state they leave on to those after them. -/
theorem resetContexts_append {before : List DeviceContext}
    (h : resetContexts before s = { result := .ok (), after := t }) (cs : List DeviceContext) :
    resetContexts (before ++ cs) s = resetContexts cs t := by
  induction before generalizing s with
  | nil => exact congrArg (fun r => resetContexts cs r.after) h
  | cons c before ih =>
    rw [List.cons_append]
    cases hdev : devReset c.device s with
    | ok u =>
      rw [resetContexts_of_devReset_ok hdev] at h ⊢
      exact ih h
    | fail k =>
      rw [resetContexts_of_devReset_fail hdev] at h
      exact nomatch congrArg Reply.result h

end ResetContexts

/-- The state with every device of the list reset, in one step: the order of the devices is of no account. -/
def State.resetDevices (devs : List Device) (s : State) : State :=
  { s with
    regs := if .cpu ∈ devs then resetRegs s.nRegs s.soc else s.regs
    mems := s.mems.mapIdx fun m d => if .memory m ∈ devs then d.reset else d }

section ResetDevices

variable {s : State} {devs : List Device}

theorem resetDevices_regs_of_mem (h : .cpu ∈ devs) : (s.resetDevices devs).regs = resetRegs s.nRegs s.soc := if_pos h

theorem resetDevices_regs_of_not_mem (h : .cpu ∉ devs) : (s.resetDevices devs).regs = s.regs := if_neg h

theorem resetDevices_nRegs (h : 1 ≤ s.nRegs) : (s.resetDevices devs).nRegs = s.nRegs := by
  by_cases hcpu : .cpu ∈ devs
  · exact (congrArg List.length (resetDevices_regs_of_mem hcpu)).trans (cpuReset_nRegs h)
  · exact congrArg List.length (resetDevices_regs_of_not_mem hcpu)

theorem resetDevices_mems (m : Nat) : (s.resetDevices devs).mems[m]? =
    (s.mems[m]?).map fun d => if .memory m ∈ devs then d.reset else d :=
  List.getElem?_mapIdx

theorem resetDevices_mems_of_mem {m : Nat} {d : Memory} (h : .memory m ∈ devs) (hd : s.mems[m]? = some d) :
    (s.resetDevices devs).mems[m]? = some d.reset := by
  simp only [resetDevices_mems, hd, Option.map_some, if_pos h]

theorem resetDevices_mems_of_not_mem {m : Nat} (h : .memory m ∉ devs) :
    (s.resetDevices devs).mems[m]? = s.mems[m]? := by
  simp only [resetDevices_mems, if_neg h, Option.map_id']

theorem sameSetup_resetDevices (h : 1 ≤ s.nRegs) : SameSetup s (s.resetDevices devs) := by
  refine ⟨rfl, rfl, resetDevices_nRegs h, List.ext_getElem? fun m => ?_⟩
  rw [List.getElem?_map, List.getElem?_map]
  by_cases hm : .memory m ∈ devs
  · cases hd : s.mems[m]? with
    | none => rw [resetDevices_mems, hd, Option.map_none]
    | some d =>
      rw [resetDevices_mems_of_mem hm hd]
      rfl
  · rw [resetDevices_mems_of_not_mem hm]

theorem resetDevices_nil : s.resetDevices [] = s := by
  have hmems : (s.resetDevices []).mems = s.mems :=
    List.ext_getElem? fun m => resetDevices_mems_of_not_mem List.not_mem_nil
  exact congrArg (fun ms => { s with mems := ms }) hmems

/-- Resetting the CPU before the others comes to the same as resetting it with them. -/
theorem resetDevices_cpuReset (h : 1 ≤ s.nRegs) : (cpuReset s).resetDevices devs = s.resetDevices (.cpu :: devs) := by
  simp only [State.resetDevices, State.mk.injEq, cpuReset_nRegs h]
  exact ⟨rfl, by simp [cpuReset], by simp [cpuReset], rfl⟩

/-- Resetting a memory device before the others comes to the same as resetting it with them. -/
theorem resetDevices_setMem {m : Nat} {d : Memory} (hd : s.mems[m]? = some d) :
    (s.setMem m d.reset).resetDevices devs = s.resetDevices (.memory m :: devs) := by
  simp only [State.resetDevices, State.mk.injEq]
  refine ⟨rfl, by simp, List.ext_getElem? fun i => ?_, rfl⟩
  simp only [List.getElem?_mapIdx, setMem_mems]
  by_cases hi : i = m
  · subst hi
    simp [List.getElem?_set_self (mems_lt hd), hd, Memory.reset]
  · simp [List.getElem?_set_ne (Ne.symm hi), hi]

end ResetDevices

/-- The loop over existing devices completes, and leaves all of them reset. -/
theorem resetContexts_of_exist {cs : List DeviceContext} {s : State} (h : 1 ≤ s.nRegs)
    (hexist : ∀ c ∈ cs, ∀ m, c.device = .memory m → m < s.mems.length) :
    resetContexts cs s = { result := .ok (), after := s.resetDevices (cs.map (·.device)) } := by
  induction cs generalizing s with
  | nil => rw [resetContexts, List.map_nil, resetDevices_nil]
  | cons c cs ih =>
    have hrest := fun c' hc' => hexist c' (List.mem_cons_of_mem c hc')
    rw [List.map_cons]
    cases hdev : c.device with
    | cpu =>
      have hreset : devReset c.device s = .ok (cpuReset s) := by rw [hdev, devReset]
      rw [resetContexts_of_devReset_ok hreset, ← resetDevices_cpuReset h]
      exact ih ((cpuReset_nRegs h).symm ▸ h) hrest
    | memory m =>
      have hd := List.getElem?_eq_getElem (hexist c List.mem_cons_self m hdev)
      have hreset := hdev ▸ devReset_memory hd
      rw [resetContexts_of_devReset_ok hreset, ← resetDevices_setMem hd]
      exact ih h (by simpa using hrest)

theorem resetAll_of_exist {s : State} (h : 1 ≤ s.nRegs) (hexist : s.DevicesExist) :
    resetAll s = { result := .ok (), after := s.resetDevices (s.registry.map (·.device)) } :=
  resetContexts_of_exist h hexist

/-- Settles O46: the loop stops at the first failing reset; in a legal state it has none, and each clause reads off the
state with the attached devices reset. -/
theorem systemResetResetsTheAttached : Obligations.SystemResetResetsTheAttached := by
  refine ⟨fun before c rest s t k hok hfail => ?_, fun s hs => ?_⟩
  · rw [resetContexts_append hok, resetContexts_of_devReset_fail hfail]
  · have hn : 1 ≤ s.nRegs := Nat.one_le_of_lt hs.regs_low
    have hmem : ∀ dev, dev ∈ s.registry.map (·.device) ↔ ∃ c ∈ s.registry, c.device = dev := fun _ => List.mem_map
    have hnotMem : ∀ dev, (∀ c ∈ s.registry, c.device ≠ dev) → dev ∉ s.registry.map (·.device) := by simp
    rw [resetAll_of_exist hn hs.exist]
    refine ⟨rfl, sameSetup_resetDevices hn, fun hcpu => ?_, fun hcpu => ?_, fun m d hd hm l hl => ?_,
      fun m hm l => ?_⟩
    · exact readReg_of_resetRegs hs (resetDevices_regs_of_mem ((hmem _).mpr hcpu))
    · exact sameRegs_of_regs (resetDevices_regs_of_not_mem (hnotMem _ hcpu))
    · exact byteAt_of_mems_reset (resetDevices_mems_of_mem ((hmem _).mpr hm) hd) hl
    · simp only [State.byteAt, resetDevices_mems_of_not_mem (hnotMem _ hm)]

/-! ## Construction and boot (R193) -/

/-- Contexts of devices not attached yet, no device twice, are all attached, in order (R41). -/
theorem attachAll_of_nodup {cs : List DeviceContext} {s : State}
    (h : ((s.registry ++ cs).map (·.device)).Nodup) :
    attachAll cs s = { result := .ok (), after := { s with registry := s.registry ++ cs } } := by
  induction cs generalizing s with
  | nil => rw [attachAll, List.append_nil]
  | cons c cs ih =>
    have hnew : s.attached c.device = false := by
      rw [List.map_append] at h
      obtain ⟨-, -, hdisjoint⟩ := List.nodup_append.mp h
      exact attached_eq_false_iff.mpr fun c' hc' =>
        hdisjoint _ (List.mem_map_of_mem hc') _ (List.mem_map_of_mem List.mem_cons_self)
    have hassoc : s.registry ++ c :: cs = s.registry ++ [c] ++ cs := by simp
    rw [attachAll, attach_of_not_attached c.role c.range hnew, hassoc]
    exact ih (hassoc ▸ h)

/-- The machine that R193's steps 1 and 2 build: every context attached, registers and bytes still unspecified. -/
def constructAttached (p : Params) : State := { construct p with registry := p.busConfig }

theorem boot_eq_resetAll {p : Params} (h : p.busWf = true) : boot p = resetAll (constructAttached p) := by
  have hattach : attachAll p.busConfig (construct p) = { result := .ok (), after := constructAttached p } :=
    attachAll_of_nodup (Params.nodup_of_busWf h)
  simp only [boot, hattach]

section ConstructAttached

variable {p : Params}

theorem constructAttached_nRegs : (constructAttached p).nRegs = p.nRegs := by
  simp [State.nRegs, constructAttached, construct]

theorem constructAttached_mems : (constructAttached p).mems = p.memories.mapIdx constructMemory := rfl

theorem constructAttached_exist (h : p.busWf = true) : (constructAttached p).DevicesExist := by
  intro c hc m hm
  rw [constructAttached_mems, List.length_mapIdx]
  exact Params.lt_of_busWf h hc hm

theorem Params.mem_devices_of_busWf (h : p.busWf = true) :
    .cpu ∈ p.busConfig.map (·.device) ∧ ∀ m, m < p.memories.length → .memory m ∈ p.busConfig.map (·.device) := by
  simp [(Params.busWf_iff.mp h).mem_iff]

/-- Resetting every device of the constructed machine leaves nothing of the values before (R190, R191, D28). -/
theorem constructAttached_resetDevices (h : p.busWf = true) :
    (constructAttached p).resetDevices (p.busConfig.map (·.device)) = State.resetOf p := by
  obtain ⟨hcpu, hmemory⟩ := Params.mem_devices_of_busWf h
  have hregs : ((constructAttached p).resetDevices (p.busConfig.map (·.device))).regs = resetRegs p.nRegs p.soc := by
    rw [resetDevices_regs_of_mem hcpu, constructAttached_nRegs]
    rfl
  have hmems : ((constructAttached p).resetDevices (p.busConfig.map (·.device))).mems =
      p.memories.map Memory.afterReset := by
    refine List.ext_getElem? fun m => ?_
    rw [resetDevices_mems, constructAttached_mems, List.getElem?_mapIdx, List.getElem?_map, Option.map_map]
    by_cases hm : m < p.memories.length
    · rw [List.getElem?_eq_getElem hm, Option.map_some, Option.map_some, Function.comp_apply, if_pos (hmemory m hm)]
      rfl
    · rw [List.getElem?_eq_none (by omega), Option.map_none, Option.map_none]
  exact congr (congrArg (fun rs ms => { constructAttached p with regs := rs, mems := ms }) hregs) hmems

end ConstructAttached

/-- Settles O47: the boot is the reset of the machine with every device attached, so nothing keeps its value from
before. -/
theorem bootReachesTheResetState : Obligations.BootReachesTheResetState := by
  intro p hp
  have hinv := resetOf_inv hp
  simp only [Params.wf, Bool.and_eq_true, decide_eq_true_eq] at hp
  obtain ⟨⟨⟨⟨hlow, -⟩, -⟩, -⟩, hbus⟩ := hp
  have hregs : 1 ≤ (constructAttached p).nRegs := constructAttached_nRegs ▸ Nat.one_le_of_lt hlow
  refine ⟨?_, hinv⟩
  rw [boot_eq_resetAll hbus, resetAll_of_exist hregs (constructAttached_exist hbus)]
  exact congrArg _ (constructAttached_resetDevices hbus)

/-! ## The loader (R193 step 4) -/

theorem withFetchWord_of_memWrite {s t : State} {nbits w : Nat} (h : s.memWrite s.pc (tableWord nbits w) = .ok t) :
    s.withFetchWord nbits w = t := by
  simp only [State.withFetchWord, putFetchWord, h]

/-- Settles O22: the word is placed by one Bus write at PC, which the next fetch reads. -/
theorem placedWordIsFetched : Obligations.PlacedWordIsFetched := by
  intro s nbits w m l hs hw
  obtain ⟨t, hwrite, -, hbytes, hregs, -⟩ := memWrite_of_wordAt hs (tableWord nbits w) hw
  have hpc : t.pc = s.pc := hregs.but.pc hs List.not_mem_nil
  rw [withFetchWord_of_memWrite hwrite]
  exact ⟨fetch_after_memWrite hs hwrite hpc, hregs, hbytes⟩

end Sys2Proof.Machine
end

section
/-! PROOFS. The register frame of a completing instruction (10_state.md section 1, the "written by" column). -/

namespace Sys2Proof.Machine

open Sys2Proof

/-- Settles O14: `exec_next_regs` says it, instruction by instruction, of every state. -/
theorem onlyListedRegistersAreWritten : Obligations.OnlyListedRegistersAreWritten := fun _ _ _ h => exec_next_regs h

end Sys2Proof.Machine
end
